-- ==== Sys2Proof/Word.lean ====
section
/-! DEFINITION. The widths of 00_scope.md rule R7: host words, buffer bytes, digit nibbles, charset codes' code points. -/

namespace Sys2Proof

/-- A word of the 32-bit host data bus, and every register as the bus sees it (R7). -/
abbrev Word := BitVec 32

/-- An entry of SRCBUF or DSTBUF (R7). -/
abbrev Byte := BitVec 8

/-- A semi-octet: one digit, or the fill value (R7, R100). -/
abbrev Nibble := BitVec 4

/-- A code point, held in 21 bits (R7, R81). -/
abbrev CodePoint := BitVec 21

end Sys2Proof
end

