-- ==== Sys2Proof/Syntax.lean ====
section
/-! DEFINITION. The commands of the block: one constructor for each row of spec/opcode_table.json. -/

namespace Sys2Proof

/-- The command map of 30_encoding.md rule R72. No command carries an operand: every operand is in a register or a
buffer (R74). -/
inductive Instr where
  /-- OP 0x1, digit encode (R120). -/
  | denc
  /-- OP 0x2, digit decode (R122). -/
  | ddec
  /-- OP 0x3, timestamp marshal (R140). -/
  | tsenc
  /-- OP 0x4, timestamp unmarshal (R145). -/
  | tsdec
  /-- OP 0x5, decode a code with the default table (R166). -/
  | csdd
  /-- OP 0x6, decode a code with the extension table (R167). -/
  | csde
  /-- OP 0x7, encode a code point with the default table (R168). -/
  | csed
  /-- OP 0x8, encode a code point with the extension table (R169). -/
  | csee
deriving DecidableEq, Repr

end Sys2Proof
end

