-- ==== Sys2Proof/WellFormed.lean ====
section
/-! DEFINITION. Which instructions are well formed. -/

namespace Sys2Proof

/-- Every command is well formed: a command word has no operand field (30_encoding.md rules R70 and R74), so a term of
`Instr` has nothing that could be out of range. The checks the spec does ask of a model, on the parameters and the ROM
images, are `Sys2Proof.Machine.admissible`. -/
def Instr.wellFormed : Instr → Bool
  | .denc => true
  | .ddec => true
  | .tsenc => true
  | .tsdec => true
  | .csdd => true
  | .csde => true
  | .csed => true
  | .csee => true

end Sys2Proof
end

