-- ==== Sys2Proof/Decode.lean ====
section
/-! DEFINITION. The command word (30_encoding.md rules R70 to R73): the decoder, total on every 32-bit word and rejecting
by name, and the encoder. -/

namespace Sys2Proof

/-- Why a word is no command (R71, R73). -/
inductive DecodeError where
  /-- `w[31:4]` is not zero. -/
  | reservedBits
  /-- `w[31:4]` is zero and `w[3:0]` is 0x0 or 0x9..0xF. -/
  | unassignedOp
deriving DecidableEq, Repr

/-- The field OP, bits [3:0] (R70). -/
def opField (w : Word) : Nibble := w.extractLsb' 0 4

/-- The field RSV, bits [31:4] (R70). -/
def rsvField (w : Word) : BitVec 28 := w.extractLsb' 4 28

/-- The operation an OP value selects (R72); `none` for the values R73 lists. -/
def instrOfOp (op : Nibble) : Option Instr :=
  if op = 0x1#4 then some .denc
  else if op = 0x2#4 then some .ddec
  else if op = 0x3#4 then some .tsenc
  else if op = 0x4#4 then some .tsdec
  else if op = 0x5#4 then some .csdd
  else if op = 0x6#4 then some .csde
  else if op = 0x7#4 then some .csed
  else if op = 0x8#4 then some .csee
  else none

/-- Decoding a command word (R71): it reads nothing but the word. -/
def decode (w : Word) : Except DecodeError Instr :=
  if rsvField w ≠ 0 then .error .reservedBits
  else match instrOfOp (opField w) with
    | some i => .ok i
    | none => .error .unassignedOp

/-- The OP value of a command, the first column of R72. -/
def opOf : Instr → Nibble
  | .denc => 0x1
  | .ddec => 0x2
  | .tsenc => 0x3
  | .tsdec => 0x4
  | .csdd => 0x5
  | .csde => 0x6
  | .csed => 0x7
  | .csee => 0x8

/-- The word of a command: OP in [3:0], RSV zero (R70, R72). -/
def encode (i : Instr) : Word := (0#28) ++ opOf i

/-- The command word whose bits are the low `nbits` bits of `w`, bit 0 the least significant, the bits above zero. A
command is exactly one 32-bit word (R70). -/
def tableWord (nbits w : Nat) : Word := BitVec.ofNat 32 (w % 2 ^ nbits)

/-- What the decoder reads from an opcode-table row's word (log 16). -/
def decodeTableWord (nbits w : Nat) : Option Instr :=
  match decode (tableWord nbits w) with
  | .ok i => some i
  | .error _ => none

end Sys2Proof
end

