-- ==== Sys2Proof/Config.lean ====
section
/-! DEFINITION. What an implementation fixes (the parameters of 00_scope.md rules R5 and R6) and the values the spec
leaves unspecified (the buffer bytes after reset, 10_state.md rule R39). -/

namespace Sys2Proof

/-- The parameters of one build of the block (R5, R6). A machine carries them in its state, where no step writes them, so
that a claim about every state is a claim about every build. Which values are legal is
`Sys2Proof.Machine.admissible`. DESIGN CHOICE (log 3): parameters as read-only data of the state. -/
structure Params where
  /-- `BLOCK_BASE`: the host address of register offset 0. -/
  blockBase : Nat
  /-- `BUF_BYTES`: the size of each of SRCBUF and DSTBUF. -/
  bufBytes : Nat
  /-- `CENTURY_PIVOT`: the smallest two-digit year mapped into the 1900s. -/
  centuryPivot : Nat
  /-- `TZ_QH_MAX`: the largest timezone magnitude, in quarter-hours, that TSENC accepts. -/
  tzQhMax : Nat
  /-- `DEF_DEC`: the default table's decoder image; the entry at index `c` is that of code `c`, `none` is undefined. -/
  defDec : List (Option CodePoint)
  /-- `EXT_DEC`: the extension table's decoder image. -/
  extDec : List (Option CodePoint)
deriving DecidableEq, Repr

/-- FREE VALUE (log 7): the unspecified byte that SRCBUF index `i` holds after a reset until the host writes it
(R39, 93_implementation_defined.md U1, U2); `draw` counts the resets, so that each draws anew. It has no body: nothing can
be proved of its value. Safe. -/
opaque Config.freeSrcByte (draw i : Nat) : Byte

/-- FREE VALUE (log 7): the same for DSTBUF (R39, U1, U3). Safe. -/
opaque Config.freeDstByte (draw i : Nat) : Byte

end Sys2Proof
end

