-- ==== Sys2Proof/Machine/Parameters.lean ====
section
/-! DEFINITION. Which parameters are legal (00_scope.md rules R5 and R6, 43_charset_rom.md rules R161 and R162), and the
parameters that State.reset carries: the defaults of R5 and the reference image of R165. -/

namespace Sys2Proof.Machine

/-- The largest code point, 0x10FFFF (R6, R162). -/
def maxCodePoint : Nat := 0x10FFFF

/-- A decoder image is a function from the 128 codes 0x00..0x7F (R160), each defined entry in 0..0x10FFFF (R162). -/
def romShape (rom : List (Option CodePoint)) : Bool :=
  Nat.beq rom.length 128 &&
    rom.all (fun e => match e with
      | none => true
      | some p => Nat.ble p.toNat maxCodePoint)

/-- The defined entries of an image, in code order. -/
def romEntries : List (Option CodePoint) → List Nat
  | [] => []
  | none :: rest => romEntries rest
  | some p :: rest => p.toNat :: romEntries rest

/-- No entry occurs twice, nor one whose bit is set in `seen` (bit `q` stands for the code point `q`): the image is
injective on its defined entries (R162). -/
def distinctFrom (seen : Nat) : List Nat → Bool
  | [] => true
  | p :: rest => !(seen.testBit p) && distinctFrom (seen ||| 2 ^ p) rest

/-- The entry of code `c`; `none` where the code point is undefined (R160). -/
def romLookup (rom : List (Option CodePoint)) (c : Nat) : Option CodePoint :=
  (rom[c]?).join

/-- The four entries the source fixes in every DEF_DEC (R161). -/
def fixedEntries (rom : List (Option CodePoint)) : Bool :=
  romLookup rom 0x0A == some 0x0A && romLookup rom 0x0D == some 0x0D &&
    romLookup rom 0x1B == some 0x1B && romLookup rom 0x20 == some 0x20

/-- The legal values of the numeric parameters (R5). -/
def legalNumbers (p : Params) : Bool :=
  Nat.beq (p.blockBase % 0x4000) 0 && Nat.beq (p.bufBytes % 4) 0 && Nat.ble 8 p.bufBytes && Nat.ble p.bufBytes 4096 &&
    Nat.ble p.centuryPivot 100 && Nat.ble p.tzQhMax 79

/-- The parameters a block can be built with: R5's ranges, R161's entries and R162's constraints on the images. A model
"checks these constraints on the images it is given and refuses an image that breaks them" (R162); the step does
(`Refusal.inadmissibleParameters`). EXT_DEC may map several codes to one code point. -/
def admissible (p : Params) : Bool :=
  legalNumbers p && romShape p.defDec && romShape p.extDec && fixedEntries p.defDec && distinctFrom 0 (romEntries p.defDec)

/-- A row of sixteen defined entries. -/
def romRow (ps : List Nat) : List (Option CodePoint) := ps.map (fun p => some (BitVec.ofNat 21 p))

/-- `REF_DEF_DEC` of R165, for tests only and not claimed to be this block's ROM (log 4). -/
def refDefDec : List (Option CodePoint) :=
  romRow [0x40, 0xA3, 0x24, 0xA5, 0xE8, 0xE9, 0xF9, 0xEC, 0xF2, 0xC7, 0x0A, 0xD8, 0xF8, 0x0D, 0xC5, 0xE5] ++
  romRow [0x394, 0x5F, 0x3A6, 0x393, 0x39B, 0x3A9, 0x3A0, 0x3A8, 0x3A3, 0x398, 0x39E, 0x1B, 0xC6, 0xE6, 0xDF, 0xC9] ++
  romRow [0x20, 0x21, 0x22, 0x23, 0xA4, 0x25, 0x26, 0x27, 0x28, 0x29, 0x2A, 0x2B, 0x2C, 0x2D, 0x2E, 0x2F] ++
  romRow [0x30, 0x31, 0x32, 0x33, 0x34, 0x35, 0x36, 0x37, 0x38, 0x39, 0x3A, 0x3B, 0x3C, 0x3D, 0x3E, 0x3F] ++
  romRow [0xA1, 0x41, 0x42, 0x43, 0x44, 0x45, 0x46, 0x47, 0x48, 0x49, 0x4A, 0x4B, 0x4C, 0x4D, 0x4E, 0x4F] ++
  romRow [0x50, 0x51, 0x52, 0x53, 0x54, 0x55, 0x56, 0x57, 0x58, 0x59, 0x5A, 0xC4, 0xD6, 0xD1, 0xDC, 0xA7] ++
  romRow [0xBF, 0x61, 0x62, 0x63, 0x64, 0x65, 0x66, 0x67, 0x68, 0x69, 0x6A, 0x6B, 0x6C, 0x6D, 0x6E, 0x6F] ++
  romRow [0x70, 0x71, 0x72, 0x73, 0x74, 0x75, 0x76, 0x77, 0x78, 0x79, 0x7A, 0xE4, 0xF6, 0xF1, 0xFC, 0xE0]

/-- The ten defined codes of `REF_EXT_DEC` (R165). -/
def refExtPairs : List (Nat × Nat) :=
  [(0x0A, 0x0C), (0x14, 0x5E), (0x28, 0x7B), (0x29, 0x7D), (0x2F, 0x5C), (0x3C, 0x5B), (0x3D, 0x7E), (0x3E, 0x5D),
   (0x40, 0x7C), (0x65, 0x20AC)]

/-- The code point a list of pairs gives a code. -/
def pairLookup (c : Nat) : List (Nat × Nat) → Option CodePoint
  | [] => none
  | (k, p) :: rest => if Nat.beq k c then some (BitVec.ofNat 21 p) else pairLookup c rest

/-- `REF_EXT_DEC` of R165, for tests only (log 4). -/
def refExtDec : List (Option CodePoint) := (List.range 128).map (fun c => pairLookup c refExtPairs)

/-- The parameters of `State.reset`: the defaults of R5; BLOCK_BASE, which R5 leaves OPEN, is 0 (DESIGN CHOICE, log 5);
the images are R165's reference pair (DESIGN CHOICE, log 4). -/
def defaultParams : Params where
  blockBase := 0
  bufBytes := 256
  centuryPivot := 70
  tzQhMax := 79
  defDec := refDefDec
  extDec := refExtDec

end Sys2Proof.Machine
end

