-- ==== Sys2Proof/Machine/State.lean ====
section
/-! DEFINITION. The state of the block (10_state.md), what the host can do to it, how a step can stop, and reset. -/

namespace Sys2Proof.Machine

/-- The error kinds of 60_exceptions.md rule R200 (STATUS.ERR); their codes are `ErrKind.code`. The codes 10..15, never
produced, have no constructor (log 23). -/
inductive ErrKind where
  | ok
  | invalidDigit
  | missingFill
  | underflow
  | invalidOctet
  | invalidInteger
  | notEncodable
  | notDecodable
  | illegalCommand
  | badLength
deriving DecidableEq, Repr

/-- STATUS (10_state.md rule R23): its two fields; the reserved bits read 0 and are stored nowhere. -/
structure Status where
  /-- STATUS.DONE, bit 8. -/
  done : Bool
  /-- STATUS.ERR, bits [3:0]. -/
  err : ErrKind
deriving DecidableEq, Repr

/-- The TS registers (10_state.md rules R30 to R32). -/
structure TsRegs where
  /-- TS_YEAR, unsigned. -/
  year : BitVec 16
  /-- TS_MONTH. -/
  month : Byte
  /-- TS_DAY. -/
  day : Byte
  /-- TS_HOUR. -/
  hour : Byte
  /-- TS_MIN. -/
  minute : Byte
  /-- TS_SEC. -/
  second : Byte
  /-- TS_OFFSET, minutes from UTC in two's complement. -/
  offset : BitVec 16
deriving DecidableEq, Repr

/-- One access of the host to an address of its bus (20_memory.md rule R52; 00_scope.md rule R9). `size` is the width in
bytes; the block supports only 4. Log 27: an address is a Nat. -/
inductive HostAccess where
  /-- `MemRead(addr, size)`. -/
  | read (size addr : Nat)
  /-- `MemWrite(addr, size, data)`. -/
  | write (size addr : Nat) (data : Word)
  /-- An instruction fetch (R60). -/
  | fetch (addr : Nat)
deriving DecidableEq, Repr

/-- One event at the block's host interface: one step of the machine (00_scope.md rule R13). -/
inductive HostEvent where
  /-- The host performs an access. -/
  | access (a : HostAccess)
  /-- The reset input is asserted (70_reset_and_hazards.md rule R220); `lost` is the access that coincides with it, if
  any, which has no effect. -/
  | reset (lost : Option HostAccess)
deriving DecidableEq, Repr

/-- Why the machine stops at an access. -/
inductive Fault where
  /-- Raised by the step at an access of a width other than 32 bits, at an offset that is not a multiple of 4, or at an
  instruction fetch: the block signals a bus error, changes no state and starts no command, and "the run faults at it"
  (R52, R60). Safe. -/
  | busError (a : HostAccess)
  /-- Raised by the step at an access whose address is not in the window (R50): no access of the block. Safe (log 11). -/
  | outsideWindow (a : HostAccess)
deriving DecidableEq, Repr

/-- Why the model gives no meaning. -/
inductive Refusal where
  /-- Raised only by an arm of `exec` whose instruction has no meaning yet. Safe. -/
  | notModelled (mnemonic : String)
  /-- Raised by the step when `params` are not admissible: no such block exists (R5), and a model refuses such an image
  (R162, 93_implementation_defined.md U5). Safe (log 6). -/
  | inadmissibleParameters
deriving DecidableEq, Repr

/-- A byte buffer (R35, R36): the bytes written since reset, as (index, byte) pairs with rising indices. An index that is
not listed holds no known byte: it reads as the free byte of its buffer (`State.srcByte`, `State.dstByte`; log 7, log 8). -/
abbrev Memory := List Host.Cell

/-- The machine (10_state.md rules R20 to R37). CMD is not stored (R22), and CONFIG and the encoder tables are functions
of the parameters (R29, R163), so they have no field. The last three fields are the model's own. -/
structure State where
  /-- The parameters and the ROM images, never written (R29, R37). -/
  params : Params
  /-- STATUS (R23). -/
  status : Status
  /-- ERRVAL (R24). -/
  errVal : Word
  /-- SRC_LEN (R25). -/
  srcLen : Word
  /-- DST_LIM (R26). -/
  dstLim : Word
  /-- OUT_LEN (R27). -/
  outLen : Word
  /-- CONSUMED (R28). -/
  consumed : Word
  /-- The TS registers (R30 to R32). -/
  ts : TsRegs
  /-- CS_IN (R33). -/
  csIn : Word
  /-- CS_OUT, bits [20:0] (R34). -/
  csOut : CodePoint
  /-- SRCBUF (R35). -/
  srcBuf : Memory
  /-- DSTBUF (R36). -/
  dstBuf : Memory
  /-- MODEL (log 9): how often the unspecified buffer bytes have been drawn; `Config.freeSrcByte` and
  `Config.freeDstByte` are applied to it. -/
  draws : Nat
  /-- MODEL (log 1): what the host does next, oldest first. -/
  pending : List HostEvent
  /-- MODEL (log 14): what the latest access put on the data bus; `none` after a write or a reset. -/
  readData : Option Word
deriving DecidableEq, Repr

/-- The TS registers after reset (R21, R221). -/
def TsRegs.zero : TsRegs := ⟨0, 0, 0, 0, 0, 0, 0⟩

/-- The block of parameters `p` right after a reset (R39, R220, R221): every register at the value of R21's last column,
every buffer byte unspecified (nothing listed; the `draws`-th draw). -/
def State.resetWith (p : Params) (draws : Nat) : State where
  params := p
  status := ⟨false, .ok⟩
  errVal := 0
  srcLen := 0
  dstLim := 0
  outLen := 0
  consumed := 0
  ts := TsRegs.zero
  csIn := 0
  csOut := 0
  srcBuf := []
  dstBuf := []
  draws := draws
  pending := []
  readData := none

/-- The machine right after power-on, at the default parameters; no host access is waiting. -/
def State.reset : State := State.resetWith defaultParams 0

end Sys2Proof.Machine
end

