-- ==== Sys2Proof/Machine/Ops.lean ====
section
/-! DEFINITION. The named operations over buffers and registers, and the two ways a command ends: `State.complete`
(60_exceptions.md rule R204) and `State.raise` (rule R203). The block takes no exception and has no return from one
(rules R207, R208): an error is an outcome reported in STATUS and ERRVAL. -/

namespace Sys2Proof.Machine

/-- The byte listed at index `i`; `none` where nothing has been written since reset. -/
def Memory.read : Memory → Nat → Option Byte
  | [], _ => none
  | (j, b) :: rest, i => if j = i then some b else Memory.read rest i

/-- Writing one byte: `SRC[i] <- b` or `DST[i] <- b` (R9). It keeps the indices rising. -/
def Memory.write : Memory → Nat → Byte → Memory
  | [], i, b => [(i, b)]
  | (j, c) :: rest, i, b =>
    if i < j then (i, b) :: (j, c) :: rest
    else if i = j then (i, b) :: rest
    else (j, c) :: Memory.write rest i b

/-- Writing the bytes `bs` at `i`, `i + 1`, ... -/
def Memory.writeAll : Memory → Nat → List Byte → Memory
  | m, _, [] => m
  | m, i, b :: bs => Memory.writeAll (Memory.write m i b) (i + 1) bs

/-- Every listed index is above `i` and they rise strictly. -/
def Memory.risesFrom (i : Nat) : Memory → Bool
  | [] => true
  | (j, _) :: rest => Nat.blt i j && Memory.risesFrom j rest

/-- The canonical form of a buffer: listed indices strictly rising. An unlisted index reads as no known byte, so no entry
can equal what an unlisted index reads as (log 8). -/
def Memory.wf : Memory → Bool
  | [] => true
  | (j, _) :: rest => Memory.risesFrom j rest

/-- Every listed index is below `n`: the buffer has `n` bytes (R35, R36). -/
def Memory.within (n : Nat) (m : Memory) : Bool := m.all (fun c => Nat.blt c.1 n)

/-- `SRC[i]` (R9): the byte written there, or the free byte of an index not written since reset (R39). -/
def State.srcByte (s : State) (i : Nat) : Byte := (s.srcBuf.read i).getD (Config.freeSrcByte s.draws i)

/-- `DST[i]` (R9). -/
def State.dstByte (s : State) (i : Nat) : Byte := (s.dstBuf.read i).getD (Config.freeDstByte s.draws i)

/-- `DST[j] <- bs[j]` for every `j` below the length of `bs`: the only way a command writes DSTBUF (R36). -/
def State.storeDst (bs : List Byte) (s : State) : State := { s with dstBuf := Memory.writeAll s.dstBuf 0 bs }

/-- TSDEC's write of the TS registers (R145). -/
def State.setTs (r : TsRegs) (s : State) : State := { s with ts := r }

/-- A charset command's write of CS_OUT (R34). -/
def State.setCsOut (p : CodePoint) (s : State) : State := { s with csOut := p }

/-- An error of a command: its kind and its offending value, zero-extended (R10, R200). -/
structure CommandError where
  kind : ErrKind
  value : Word
deriving DecidableEq, Repr

/-- `ok` with the results OUT_LEN and CONSUMED (R27, R28, R204): DONE = 1, ERR = OK, ERRVAL = 0. -/
def State.complete (outLen consumed : Nat) (s : State) : State :=
  { s with
    status := ⟨true, .ok⟩, errVal := 0, outLen := BitVec.ofNat 32 outLen, consumed := BitVec.ofNat 32 consumed }

/-- `raise E(v)` (R203): DONE = 1, ERR = the kind, ERRVAL = the value, OUT_LEN = CONSUMED = 0, and nothing else. -/
def State.raise (e : CommandError) (s : State) : State :=
  { s with status := ⟨true, e.kind⟩, errVal := e.value, outLen := 0, consumed := 0 }

/-- How a command ends from the state `s` it started in: with its results, or with an error raised in `s` itself, so that
every command is all-or-nothing (R203). Either way the machine goes on (R207). -/
def conclude (s : State) : Except CommandError State → Host.Outcome State Fault Refusal
  | .ok t => .next t
  | .error e => .next (State.raise e s)

/-- The outcome of a CMD write whose word `w` is illegal (30_encoding.md rule R73, 60_exceptions.md rule R202). -/
def illegalCommand (w : Word) (s : State) : Host.Outcome State Fault Refusal :=
  conclude s (.error ⟨.illegalCommand, w⟩)

/-- The TS registers' write by the host (R42): only the register named changes. -/
def State.updateTs (f : TsRegs → TsRegs) (s : State) : State := { s with ts := f s.ts }

end Sys2Proof.Machine
end

