-- ==== Sys2Proof/Machine/Charset.lean ====
section
/-! DEFINITION. The charset ROM (43_charset_rom.md): CSDD, CSDE, CSED and CSEE. -/

namespace Sys2Proof.Machine

/-- Decoding a code with a decoder image (R166, R167): a value above 0x7F is no code. -/
def romDecode (rom : List (Option CodePoint)) (x : Word) : Option CodePoint :=
  if x.toNat > 0x7F then none else romLookup rom x.toNat

/-- Whether an entry is the code point `p`, a 32-bit value. -/
def entryIs (p : Word) : Option CodePoint → Bool
  | none => false
  | some q => q.toNat == p.toNat

/-- The first code, counting from `c`, whose entry is `p`. -/
def firstCode (p : Word) (c : Nat) : List (Option CodePoint) → Option Nat
  | [] => none
  | e :: rest => if entryIs p e then some c else firstCode p (c + 1) rest

/-- The encoder derived from a decoder image, lowest-code-wins (R163): the smallest code whose entry is `p`. -/
def romEncode (rom : List (Option CodePoint)) (p : Word) : Option Nat := firstCode p 0 rom

/-- The decode commands over an image: CS_OUT is the code point, or NOT_DECODABLE(CS_IN) (R164, R166, R167). -/
def charsetDecode (rom : List (Option CodePoint)) (s : State) : Except CommandError State :=
  match romDecode rom s.csIn with
  | none => .error ⟨.notDecodable, s.csIn⟩
  | some p => .ok (State.complete 0 0 (State.setCsOut p s))

/-- The encode commands over an image: CS_OUT is the code, or NOT_ENCODABLE(CS_IN) (R164, R168, R169). -/
def charsetEncode (rom : List (Option CodePoint)) (s : State) : Except CommandError State :=
  match romEncode rom s.csIn with
  | none => .error ⟨.notEncodable, s.csIn⟩
  | some c => .ok (State.complete 0 0 (State.setCsOut (BitVec.ofNat 21 c) s))

/-- CSDD, decode a code with the default table (R166). -/
def execCsdd (s : State) : Host.Outcome State Fault Refusal := conclude s (charsetDecode s.params.defDec s)

/-- CSDE, decode a code with the extension table (R167). -/
def execCsde (s : State) : Host.Outcome State Fault Refusal := conclude s (charsetDecode s.params.extDec s)

/-- CSED, encode a code point with the default table (R168). -/
def execCsed (s : State) : Host.Outcome State Fault Refusal := conclude s (charsetEncode s.params.defDec s)

/-- CSEE, encode a code point with the extension table (R169). -/
def execCsee (s : State) : Host.Outcome State Fault Refusal := conclude s (charsetEncode s.params.extDec s)

end Sys2Proof.Machine
end

