-- ==== Sys2Proof/Machine/Bcd.lean ====
section
/-! DEFINITION. The nibble and BCD primitives of 40_bcd_primitives.md. A primitive that fails answers the error that ends
the command which called it. -/

namespace Sys2Proof.Machine

/-- The fill value 0xF (R100). -/
def fill : Nibble := 0xF

/-- The digit alphabet (R101): nibble value and ASCII byte. The fill value has no symbol. -/
def digitAlphabet : List (Nibble × Byte) :=
  [(0x0, 0x30), (0x1, 0x31), (0x2, 0x32), (0x3, 0x33), (0x4, 0x34), (0x5, 0x35), (0x6, 0x36), (0x7, 0x37), (0x8, 0x38),
   (0x9, 0x39), (0xA, 0x2A), (0xB, 0x23), (0xC, 0x61), (0xD, 0x62), (0xE, 0x63)]

/-- `sym` of R101; `none` exactly for the fill value. -/
def symOf (d : Nibble) : Option Byte := (digitAlphabet.find? (fun p => p.1 == d)).map Prod.snd

/-- `nib` of R101; `none` exactly for a byte that is no symbol. -/
def nibOf (x : Byte) : Option Nibble := (digitAlphabet.find? (fun p => p.2 == x)).map Prod.fst

/-- The low nibble, the earlier digit (R102). -/
def lo (b : Byte) : Nibble := b.extractLsb' 0 4

/-- The high nibble, the later digit (R102). -/
def hi (b : Byte) : Nibble := b.extractLsb' 4 4

/-- Pair packing (R102): the earlier digit in the low nibble. -/
def pack (d0 d1 : Nibble) : Byte := d1 ++ d0

/-- Nibble swap (R103). -/
def swapNibbles (b : Byte) : Byte := lo b ++ hi b

/-- `bcd_enc` (R104): tens in the low nibble, units in the high one. -/
def bcdEnc (v : Nat) : Except CommandError Byte :=
  if v > 99 then .error ⟨.invalidInteger, BitVec.ofNat 32 v⟩
  else .ok (pack (BitVec.ofNat 4 (v / 10)) (BitVec.ofNat 4 (v % 10)))

/-- `bcd_dec` (R105). -/
def bcdDec (b : Byte) : Except CommandError Nat :=
  if (lo b).toNat > 9 ∨ (hi b).toNat > 9 then .error ⟨.invalidOctet, b.setWidth 32⟩
  else .ok (10 * (lo b).toNat + (hi b).toNat)

/-- `tz_enc` (R107), `maxQh` being TZ_QH_MAX: the sign flag is bit 3, set only for a negative count. -/
def tzEnc (maxQh : Nat) (q : Int) : Except CommandError Byte :=
  if q.natAbs > maxQh then .error ⟨.invalidInteger, BitVec.ofNat 32 q.natAbs⟩
  else do
    let b ← bcdEnc q.natAbs
    return if q < 0 then b + 0x08 else b

/-- `tz_dec` (R108): the sign bit is masked off before the pair is decoded, so an offending value is the masked byte. -/
def tzDec (b : Byte) : Except CommandError Int := do
  let a ← bcdDec (b &&& 0xF7)
  return if b.getLsbD 3 then -(a : Int) else (a : Int)

/-- Year reduction (R110). -/
def yearPair (y : BitVec 16) : Nat := y.toNat % 100

/-- Century inference (R111), `pivot` being CENTURY_PIVOT. -/
def century (pivot yy : Nat) : Nat := if yy ≥ pivot then 1900 + yy else 2000 + yy

/-- Minutes to quarter-hours (R113): rounding toward zero, the remainder discarded. -/
def quarterHours (m : BitVec 16) : Int := m.toInt.tdiv 15

/-- Quarter-hours to minutes (R114), as TS_OFFSET holds them. -/
def offsetMinutes (q : Int) : BitVec 16 := BitVec.ofInt 16 (15 * q)

end Sys2Proof.Machine
end

