-- ==== Sys2Proof/Machine/Operands.lean ====
section
/-! DEFINITION. The operands of the commands (30_encoding.md rule R74): the lengths with their check, and the source
bytes. The remaining operands (the TS registers, CS_IN) are read where they stand in the state. -/

namespace Sys2Proof.Machine

/-- `if n > BUF_BYTES: raise BAD_LENGTH(n)` (60_exceptions.md rule R201); otherwise `n`. -/
def checkLength (bufBytes : Nat) (n : Word) : Except CommandError Nat :=
  if n.toNat > bufBytes then .error ⟨.badLength, n⟩ else .ok n.toNat

/-- The bytes `SRC[i .. i + n - 1]`, in index order. -/
def srcFrom (s : State) : Nat → Nat → List Byte
  | _, 0 => []
  | i, n + 1 => s.srcByte i :: srcFrom s (i + 1) n

/-- `SRC[0 .. n-1]`. -/
def srcBytes (s : State) (n : Nat) : List Byte := srcFrom s 0 n

end Sys2Proof.Machine
end

