-- ==== Sys2Proof/Machine/Digit.lean ====
section
/-! DEFINITION. The digit unit (41_digit_codec.md): DENC and DDEC. -/

namespace Sys2Proof.Machine

/-- The nibbles of a digit string, or INVALID_DIGIT for the lowest index whose byte is no symbol (R120). -/
def digitNibbles : List Byte → Except CommandError (List Nibble)
  | [] => .ok []
  | x :: rest =>
    match nibOf x with
    | none => .error ⟨.invalidDigit, x.setWidth 32⟩
    | some d =>
      match digitNibbles rest with
      | .error e => .error e
      | .ok ds => .ok (d :: ds)

/-- Packing pairs of digits, with the fill value after an odd last one (R76, R77, R120). -/
def packDigits : List Nibble → List Byte
  | [] => []
  | [d0] => [pack d0 fill]
  | d0 :: d1 :: rest => pack d0 d1 :: packDigits rest

/-- DENC's pseudocode (R120). -/
def denc (s : State) : Except CommandError State := do
  let n ← checkLength s.params.bufBytes s.srcLen
  let ds ← digitNibbles (srcBytes s n)
  return State.complete ((n + 1) / 2) n (State.storeDst (packDigits ds) s)

/-- DENC, encode a digit string into a packed buffer (R120). -/
def execDenc (s : State) : Host.Outcome State Fault Refusal := conclude s (denc s)

/-- DDEC's loop (R122) over the source bytes not yet read, with room for `room` more digits: the digits produced and the
bytes consumed, or the byte that MISSING_FILL reports. A nibble with no symbol is the fill value. -/
def unpackDigits : List Byte → Nat → Except Byte (List Byte × Nat)
  | [], _ => .ok ([], 0)
  | _ :: _, 0 => .ok ([], 0)
  | b :: rest, room + 1 =>
    match symOf (lo b) with
    | none => .error b                       -- a fill is never valid as a low nibble
    | some d0 =>
      match room with
      | 0 => .ok ([d0], 1)                   -- the limit: the high nibble is not examined
      | room + 1 =>
        match symOf (hi b) with
        | none =>
          match rest with
          | [] => .ok ([d0], 1)              -- terminal fill: omitted, the byte counted
          | _ :: _ => .error b               -- fill before the final byte
        | some d1 =>
          match unpackDigits rest room with
          | .error e => .error e
          | .ok (ds, c) => .ok (d0 :: d1 :: ds, c + 1)

/-- DDEC's pseudocode (R122). -/
def ddec (s : State) : Except CommandError State := do
  let n ← checkLength s.params.bufBytes s.srcLen
  let l ← checkLength s.params.bufBytes s.dstLim
  match unpackDigits (srcBytes s n) l with
  | .error b => .error ⟨.missingFill, b.setWidth 32⟩
  | .ok (ds, c) => .ok (State.complete ds.length c (State.storeDst ds s))

/-- DDEC, decode a packed buffer into digits, up to a limit (R122). -/
def execDdec (s : State) : Host.Outcome State Fault Refusal := conclude s (ddec s)

end Sys2Proof.Machine
end

