-- ==== Sys2Proof/Machine/Timestamp.lean ====
section
/-! DEFINITION. The timestamp unit (42_timestamp_codec.md): TSENC and TSDEC. -/

namespace Sys2Proof.Machine

/-- The seven bytes of a timestamp in wire order (30_encoding.md rule R78, R141), or INVALID_INTEGER for the first field,
in that order, that does not fit (R140). -/
def marshal (maxQh : Nat) (r : TsRegs) : Except CommandError (List Byte) := do
  let year ← bcdEnc (yearPair r.year)
  let month ← bcdEnc r.month.toNat
  let day ← bcdEnc r.day.toNat
  let hour ← bcdEnc r.hour.toNat
  let minute ← bcdEnc r.minute.toNat
  let second ← bcdEnc r.second.toNat
  let offset ← tzEnc maxQh (quarterHours r.offset)
  return [year, month, day, hour, minute, second, offset]

/-- TSENC's pseudocode (R140). -/
def tsenc (s : State) : Except CommandError State := do
  let bytes ← marshal s.params.tzQhMax s.ts
  return State.complete 7 0 (State.storeDst bytes s)

/-- TSENC, pack the TS registers into the 7-byte timestamp (R140). No calendar check (R143). -/
def execTsenc (s : State) : Host.Outcome State Fault Refusal := conclude s (tsenc s)

/-- The TS registers of seven bytes `src 0 .. src 6`, or INVALID_OCTET for the first bad byte in index order (R145). -/
def unmarshal (pivot : Nat) (src : Nat → Byte) : Except CommandError TsRegs := do
  let yy ← bcdDec (src 0)
  let month ← bcdDec (src 1)
  let day ← bcdDec (src 2)
  let hour ← bcdDec (src 3)
  let minute ← bcdDec (src 4)
  let second ← bcdDec (src 5)
  let q ← tzDec (src 6)
  return { year := BitVec.ofNat 16 (century pivot yy)
           month := BitVec.ofNat 8 month
           day := BitVec.ofNat 8 day
           hour := BitVec.ofNat 8 hour
           minute := BitVec.ofNat 8 minute
           second := BitVec.ofNat 8 second
           offset := offsetMinutes q }

/-- TSDEC's pseudocode (R145): bytes after the seventh are ignored (R146). -/
def tsdec (s : State) : Except CommandError State := do
  let n ← checkLength s.params.bufBytes s.srcLen
  if n < 7 then .error ⟨.underflow, s.srcLen⟩
  else do
    let r ← unmarshal s.params.centuryPivot s.srcByte
    return State.complete 0 7 (State.setTs r s)

/-- TSDEC, unpack a 7-byte timestamp into the TS registers (R145). No calendar check, no carry (R149). -/
def execTsdec (s : State) : Host.Outcome State Fault Refusal := conclude s (tsdec s)

end Sys2Proof.Machine
end

