-- ==== Sys2Proof/Machine/Dispatch.lean ====
section
/-! DEFINITION. The meaning of every command: one arm per constructor of Instr. -/

namespace Sys2Proof.Machine

def exec (i : Instr) (s : State) : Host.Outcome State Fault Refusal :=
  match i with
  | .denc => Sys2Proof.Machine.execDenc s
  | .ddec => Sys2Proof.Machine.execDdec s
  | .tsenc => Sys2Proof.Machine.execTsenc s
  | .tsdec => Sys2Proof.Machine.execTsdec s
  | .csdd => Sys2Proof.Machine.execCsdd s
  | .csde => Sys2Proof.Machine.execCsde s
  | .csed => Sys2Proof.Machine.execCsed s
  | .csee => Sys2Proof.Machine.execCsee s

end Sys2Proof.Machine
end

