-- ==== Sys2Proof/Machine/Flags.lean ====
section
/-! DEFINITION. STATUS, the block's only condition indication (10_state.md rules R23 and R40): the codes of its error
kinds and the word it reads as. -/

namespace Sys2Proof.Machine

/-- The ERR code of an error kind (60_exceptions.md rule R200). -/
def ErrKind.code : ErrKind → BitVec 4
  | .ok => 0
  | .invalidDigit => 1
  | .missingFill => 2
  | .underflow => 3
  | .invalidOctet => 4
  | .invalidInteger => 5
  | .notEncodable => 6
  | .notDecodable => 7
  | .illegalCommand => 8
  | .badLength => 9

/-- The word STATUS reads as (R23): DONE in bit 8, ERR in bits [3:0], every other bit 0. -/
def Status.word (st : Status) : Word := (0#23) ++ BitVec.ofBool st.done ++ (0#4) ++ st.err.code

end Sys2Proof.Machine
end

