-- ==== Sys2Proof/Machine/Window.lean ====
section
/-! DEFINITION. The host window (20_memory.md, 10_state.md rules R21 to R42): its map, and what a supported read returns
and a supported write changes. Starting a command by a CMD write is Machine/Access.lean. -/

namespace Sys2Proof.Machine

/-- The registers of 10_state.md rule R21. -/
inductive RegName where
  | cmd | status | errVal | srcLen | dstLim | outLen | consumed | config
  | tsYear | tsMonth | tsDay | tsHour | tsMin | tsSec | tsOffset | csIn | csOut
deriving DecidableEq, Repr

/-- The register file's map (R21): register and offset. -/
def registerMap : List (RegName × Nat) :=
  [(.cmd, 0x000), (.status, 0x004), (.errVal, 0x008), (.srcLen, 0x00C), (.dstLim, 0x010), (.outLen, 0x014),
   (.consumed, 0x018), (.config, 0x01C), (.tsYear, 0x020), (.tsMonth, 0x024), (.tsDay, 0x028), (.tsHour, 0x02C),
   (.tsMin, 0x030), (.tsSec, 0x034), (.tsOffset, 0x038), (.csIn, 0x040), (.csOut, 0x044)]

/-- The register at an offset, if R21 lists one. -/
def registerAt (off : Nat) : Option RegName := (registerMap.find? (fun p => p.2 == off)).map Prod.fst

/-- What stands at a word of the window. -/
inductive Location where
  | register (r : RegName)
  /-- SRC[i .. i+3]. -/
  | source (i : Nat)
  /-- DST[i .. i+3]. -/
  | destination (i : Nat)
  /-- A reserved offset (R53) or a buffer word at or beyond BUF_BYTES (R51): reads 0, writes ignored. -/
  | unused
deriving DecidableEq, Repr

/-- The window's map (R50, R51), `off` a multiple of 4. -/
def locate (bufBytes off : Nat) : Location :=
  if off < 0x100 then
    match registerAt off with
    | some r => .register r
    | none => .unused
  else if 0x1000 ≤ off ∧ off < 0x1000 + bufBytes ∧ off < 0x2000 then .source (off - 0x1000)
  else if 0x2000 ≤ off ∧ off < 0x2000 + bufBytes ∧ off < 0x3000 then .destination (off - 0x2000)
  else .unused

/-- The offset of an address in the window (R50); `none` outside it. -/
def windowOffset (base addr : Nat) : Option Nat :=
  if base ≤ addr ∧ addr < base + 0x4000 then some (addr - base) else none

/-- CONFIG (R29). -/
def configWord (p : Params) : Word :=
  BitVec.ofNat 8 p.tzQhMax ++ BitVec.ofNat 8 p.centuryPivot ++ BitVec.ofNat 16 p.bufBytes

/-- Four buffer bytes as a word, little-endian (R51). -/
def wordOf (b0 b1 b2 b3 : Byte) : Word := b3 ++ b2 ++ b1 ++ b0

/-- Byte `j` of a word: `v[8j+7 : 8j]` (R51). -/
def byteOf (v : Word) (j : Nat) : Byte := v.extractLsb' (8 * j) 8

/-- What a read of a register returns (R22 to R34, R42): CMD reads 0, TS_OFFSET sign-extended, the others zero-extended. -/
def readRegister (r : RegName) (s : State) : Word :=
  match r with
  | .cmd => 0
  | .status => s.status.word
  | .errVal => s.errVal
  | .srcLen => s.srcLen
  | .dstLim => s.dstLim
  | .outLen => s.outLen
  | .consumed => s.consumed
  | .config => configWord s.params
  | .tsYear => s.ts.year.setWidth 32
  | .tsMonth => s.ts.month.setWidth 32
  | .tsDay => s.ts.day.setWidth 32
  | .tsHour => s.ts.hour.setWidth 32
  | .tsMin => s.ts.minute.setWidth 32
  | .tsSec => s.ts.second.setWidth 32
  | .tsOffset => s.ts.offset.signExtend 32
  | .csIn => s.csIn
  | .csOut => s.csOut.setWidth 32

/-- What a write to a register other than CMD changes (R25 to R34): the used field takes the low bits of the word; a
read-only register ignores the write (R42). The word written to CMD is not stored (R22). -/
def writeRegister (r : RegName) (w : Word) (s : State) : State :=
  match r with
  | .cmd => s
  | .status => s
  | .errVal => s
  | .srcLen => { s with srcLen := w }
  | .dstLim => { s with dstLim := w }
  | .outLen => s
  | .consumed => s
  | .config => s
  | .tsYear => s.updateTs (fun r => { r with year := w.setWidth 16 })
  | .tsMonth => s.updateTs (fun r => { r with month := w.setWidth 8 })
  | .tsDay => s.updateTs (fun r => { r with day := w.setWidth 8 })
  | .tsHour => s.updateTs (fun r => { r with hour := w.setWidth 8 })
  | .tsMin => s.updateTs (fun r => { r with minute := w.setWidth 8 })
  | .tsSec => s.updateTs (fun r => { r with second := w.setWidth 8 })
  | .tsOffset => s.updateTs (fun r => { r with offset := w.setWidth 16 })
  | .csIn => { s with csIn := w }
  | .csOut => s

/-- A supported read (R51, R53): it changes nothing (R55). -/
def readLocation (l : Location) (s : State) : Word :=
  match l with
  | .register r => readRegister r s
  | .source i => wordOf (s.srcByte i) (s.srcByte (i + 1)) (s.srcByte (i + 2)) (s.srcByte (i + 3))
  | .destination i => wordOf (s.dstByte i) (s.dstByte (i + 1)) (s.dstByte (i + 2)) (s.dstByte (i + 3))
  | .unused => 0

/-- A supported write to a location other than CMD (R51, R53, R55). -/
def writeLocation (l : Location) (w : Word) (s : State) : State :=
  match l with
  | .register r => writeRegister r w s
  | .source i => { s with srcBuf := Memory.writeAll s.srcBuf i [byteOf w 0, byteOf w 1, byteOf w 2, byteOf w 3] }
  | .destination i => { s with dstBuf := Memory.writeAll s.dstBuf i [byteOf w 0, byteOf w 1, byteOf w 2, byteOf w 3] }
  | .unused => s

end Sys2Proof.Machine
end

