-- ==== Sys2Proof/Machine/Access.lean ====
section
/-! DEFINITION. What one host event does: a bus access (20_memory.md rule R52), a CMD write that runs a command
(10_state.md rule R22, 70_reset_and_hazards.md rule R228), reset (rule R220). -/

namespace Sys2Proof.Machine

/-- A write of the word `w` to CMD: the command it selects runs to its end, or the word is illegal (R22, R71, R73). -/
def runCommand (w : Word) (s : State) : Host.Outcome State Fault Refusal :=
  match decode w with
  | .ok i => exec i s
  | .error _ => illegalCommand w s

/-- Only a 32-bit access at an offset that is a multiple of 4 is supported (R52). -/
def supported (size off : Nat) : Bool := size == 4 && off % 4 == 0

/-- A supported write at a location: CMD starts a command, any other location is written (R55). -/
def storeAt (l : Location) (w : Word) (s : State) : Host.Outcome State Fault Refusal :=
  match l with
  | .register .cmd => runCommand w s
  | l => .next (writeLocation l w s)

/-- The address of an access. -/
def HostAccess.addr : HostAccess → Nat
  | .read _ addr => addr
  | .write _ addr _ => addr
  | .fetch addr => addr

/-- An access at offset `off` of the window (R51 to R55, R60). -/
def performAt (a : HostAccess) (off : Nat) (s : State) : Host.Outcome State Fault Refusal :=
  match a with
  | .fetch _ => .fault (.busError a)
  | .read size _ =>
    if supported size off then .next { s with readData := some (readLocation (locate s.params.bufBytes off) s) }
    else .fault (.busError a)
  | .write size _ w =>
    if supported size off then storeAt (locate s.params.bufBytes off) w s
    else .fault (.busError a)

/-- One host access. -/
def perform (a : HostAccess) (s : State) : Host.Outcome State Fault Refusal :=
  match windowOffset s.params.blockBase a.addr with
  | none => .fault (.outsideWindow a)
  | some off => performAt a off s

/-- Reset (R220): every register to its reset value, the buffer bytes drawn anew, the ROM and the parameters unchanged;
the host's later accesses stay what they are. -/
def applyReset (s : State) : State :=
  { State.resetWith s.params (s.draws + 1) with pending := s.pending }

/-- The state in which the event at the head of the list is handled: it is taken off the list, and the data bus holds
nothing yet. -/
def acceptEvent (rest : List HostEvent) (s : State) : State := { s with pending := rest, readData := none }

/-- One host event. An access that coincides with reset is lost (R220). -/
def handle (e : HostEvent) (s : State) : Host.Outcome State Fault Refusal :=
  match e with
  | .access a => perform a s
  | .reset _ => .next (applyReset s)

end Sys2Proof.Machine
end

