-- ==== Sys2Proof/Machine/Step.lean ====
section
/-! DEFINITION. One step of the machine: one host event (00_scope.md rule R13). -/

namespace Sys2Proof.Machine

/-- A model refuses parameters that are not admissible (R162). Otherwise the oldest waiting event is handled (R57); with
none waiting the block does nothing, since it never acts on its own (R13, R231; log 2). -/
def step (s : State) : Host.Outcome State Fault Refusal :=
  if admissible s.params then
    match s.pending with
    | [] => .next s
    | e :: rest => handle e (acceptEvent rest s)
  else .refused .inadmissibleParameters

/-- `s` with a write of the command word to CMD as the host's very next access (log 15): the block fetches nothing, a
command runs because the host writes it to CMD. -/
def State.withFetchWord (s : State) (nbits w : Nat) : State :=
  { s with pending := .access (.write 4 s.params.blockBase (tableWord nbits w)) :: s.pending }

end Sys2Proof.Machine
end

