-- ==== Sys2Proof/Machine/Notation.lean ====
section
/-! DEFINITION. The notation of host programs (30_encoding.md rules R82 and R83) as the accesses it stands for; `base` is
BLOCK_BASE. A program is the list of events it puts in `pending` (log 15). -/

namespace Sys2Proof.Machine

/-- `W off, val` (R82). -/
def hostW (base off : Nat) (val : Word) : HostEvent := .access (.write 4 (base + off) val)

/-- `R off` (R82). -/
def hostR (base off : Nat) : HostEvent := .access (.read 4 (base + off))

/-- `CMD m` expands to `W 0x000, OP(m)` (R83). -/
def hostCmd (base : Nat) (m : Instr) : List HostEvent := [hostW base 0x000 (encode m)]

/-- `POLL` expands to `R STATUS` (R83). -/
def hostPoll (base : Nat) : List HostEvent := [hostR base 0x004]

/-- The words of a byte sequence written from offset `off` on, four bytes a word; a byte index past the end contributes
0x00. -/
def loadWords (base off : Nat) : List Byte → List HostEvent
  | [] => []
  | [b0] => [hostW base off (wordOf b0 0 0 0)]
  | [b0, b1] => [hostW base off (wordOf b0 b1 0 0)]
  | [b0, b1, b2] => [hostW base off (wordOf b0 b1 b2 0)]
  | b0 :: b1 :: b2 :: b3 :: rest => hostW base off (wordOf b0 b1 b2 b3) :: loadWords base (off + 4) rest

/-- `LDSRC b0 b1 ... b(n-1)` (R83): it does not write SRC_LEN. -/
def hostLdsrc (base : Nat) (bs : List Byte) : List HostEvent := loadWords base 0x1000 bs

/-- `RDDST n` (R83): one read for each `k` with `4k < n`. -/
def hostRddst (base n : Nat) : List HostEvent := (List.range ((n + 3) / 4)).map (fun k => hostR base (0x2000 + 4 * k))

end Sys2Proof.Machine
end

