-- ==== Sys2Proof/Safety.lean ====
section
/-! DEFINITION. What holds of every state a run passes through, in the terms claims use. -/

namespace Sys2Proof.Machine

/-- The invariant of the block: it keeps to the spec's ranges at every step.
- `params`: the parameters are legal (R5, R161, R162);
- `src`, `dst`: each buffer is in canonical form and has no byte at or beyond BUF_BYTES (R35, R36);
- `outLen`, `consumed`: the two lengths never exceed BUF_BYTES (R27, R28);
- `csOut`: CS_OUT holds a code point or a code (R34);
- `okValue`: ERRVAL is 0 when ERR is OK (R24);
- `errLengths`: OUT_LEN and CONSUMED are 0 when ERR is not OK (R203);
- `notDone`: before any command has completed, ERR is OK, the two lengths are 0 and CS_OUT is 0 (R23, R221). -/
structure State.Inv (s : State) : Prop where
  params : admissible s.params = true
  src : s.srcBuf.wf = true ∧ s.srcBuf.within s.params.bufBytes = true
  dst : s.dstBuf.wf = true ∧ s.dstBuf.within s.params.bufBytes = true
  outLen : s.outLen.toNat ≤ s.params.bufBytes
  consumed : s.consumed.toNat ≤ s.params.bufBytes
  csOut : s.csOut.toNat ≤ maxCodePoint
  okValue : s.status.err = .ok → s.errVal = 0
  errLengths : s.status.err ≠ .ok → s.outLen = 0 ∧ s.consumed = 0
  notDone : s.status.done = false → s.status.err = .ok ∧ s.outLen = 0 ∧ s.consumed = 0 ∧ s.csOut = 0


/-- The error kinds a command may raise: the "raised by" column of 60_exceptions.md rule R200. ILLEGAL_COMMAND is raised by
a CMD write of an illegal word, by no command. -/
def mayRaise : Instr → List ErrKind
  | .denc => [.invalidDigit, .badLength]
  | .ddec => [.missingFill, .badLength]
  | .tsenc => [.invalidInteger]
  | .tsdec => [.underflow, .invalidOctet, .badLength]
  | .csdd => [.notDecodable]
  | .csde => [.notDecodable]
  | .csed => [.notEncodable]
  | .csee => [.notEncodable]

/-! The vocabulary of the statements: the operands of the commands as the spec's prose names them. -/

/-- Nibble `j` of the packed source buffer: the low nibble of `SRC[j/2]` at an even `j`, the high one at an odd `j`
(30_encoding.md rule R76). -/
def srcNibble (s : State) (j : Nat) : Nibble :=
  if j % 2 = 0 then lo (s.srcByte (j / 2)) else hi (s.srcByte (j / 2))

/-- How many digits the `SRC_LEN` source bytes hold: two a byte, less one where the final byte's high nibble is the fill
value (R77; the "decodable length" of 41_digit_codec.md rule R125). -/
def decodableLength (s : State) : Nat :=
  if 0 < s.srcLen.toNat ∧ hi (s.srcByte (s.srcLen.toNat - 1)) = fill then 2 * s.srcLen.toNat - 1 else 2 * s.srcLen.toNat

/-- The six calendar values TSENC encodes, in wire order: year mod 100, month, day, hour, minute, second
(42_timestamp_codec.md rule R140). -/
def tsField (r : TsRegs) : Nat → Nat
  | 0 => r.year.toNat % 100
  | 1 => r.month.toNat
  | 2 => r.day.toNat
  | 3 => r.hour.toNat
  | 4 => r.minute.toNat
  | 5 => r.second.toNat
  | _ => 0

/-- Both nibbles of a byte are decimal (R105). -/
def isPair (b : Byte) : Prop := b.toNat % 16 ≤ 9 ∧ b.toNat / 16 ≤ 9

/-- The value of a BCD pair: tens in the low nibble, units in the high one (R105). -/
def pairValue (b : Byte) : Nat := 10 * (b.toNat % 16) + b.toNat / 16

/-- The signed quarter-hour count of an offset byte: tens in bits [2:0], the sign in bit 3, units in bits [7:4] (R80,
R108). -/
def quarterCount (b : Byte) : Int :=
  if b.toNat / 8 % 2 = 1 then -((10 * (b.toNat % 8) + b.toNat / 16 : Nat) : Int)
  else ((10 * (b.toNat % 8) + b.toNat / 16 : Nat) : Int)

end Sys2Proof.Machine
end

