-- ==== Sys2Proof/Certificates/Slice0/Obligations.lean ====
section
/-! DEFINITION. The statements for the provers. -/

open Sys2Proof Sys2Proof.Machine

/-! ## The command word -/

/-- 30_encoding.md rule R72: the eight words of the command map. -/
def Obligations.CommandWordsDecode : Prop :=
  decode 0x00000001 = .ok .denc ∧ decode 0x00000002 = .ok .ddec ∧ decode 0x00000003 = .ok .tsenc ∧
    decode 0x00000004 = .ok .tsdec ∧ decode 0x00000005 = .ok .csdd ∧ decode 0x00000006 = .ok .csde ∧
    decode 0x00000007 = .ok .csed ∧ decode 0x00000008 = .ok .csee

/-- R71: a word selects the operation whose OP value is its bits [3:0] if and only if its bits [31:4] are zero; it is
rejected exactly where its bits [31:4] are not zero or its bits [3:0] are none of the eight values. -/
def Obligations.DecodeSelectsByOpAndReservedBits : Prop :=
  ∀ w : Word,
    (∀ i : Instr, decode w = .ok i ↔ w.toNat / 16 = 0 ∧ w.toNat % 16 = (opOf i).toNat) ∧
    ((∃ e, decode w = .error e) ↔ w.toNat / 16 ≠ 0 ∨ w.toNat % 16 = 0 ∨ 9 ≤ w.toNat % 16)

/-- Decode and encode agree in both directions: a word decodes to a command exactly when it is that command's word (R70 to
R72). -/
def Obligations.DecodeAgreesWithEncode : Prop :=
  ∀ (w : Word) (i : Instr), decode w = .ok i ↔ w = encode i

/-- R73, R202: a CMD write of an illegal word performs no operation and ends with ILLEGAL_COMMAND, offending value the
word. -/
def Obligations.IllegalWordRaisesIllegalCommand : Prop :=
  ∀ (s : State) (w : Word) (rest : List HostEvent), admissible s.params = true →
    s.pending = .access (.write 4 s.params.blockBase w) :: rest →
    (w.toNat / 16 ≠ 0 ∨ w.toNat % 16 = 0 ∨ 9 ≤ w.toNat % 16) →
    step s = .next { s with
      status := ⟨true, .illegalCommand⟩, errVal := w, outLen := 0, consumed := 0, pending := rest, readData := none }

/-! ## The step -/

/-- R22: a write of a word to CMD, at window offset 0, runs the command it decodes to. Around the command the step takes
the access off the host's list and clears the data bus (the model's own fields, logs 1 and 14); the word is not stored. -/
def Obligations.CmdWriteRunsDecodedCommand : Prop :=
  ∀ (s : State) (w : Word) (i : Instr) (rest : List HostEvent), admissible s.params = true →
    s.pending = .access (.write 4 s.params.blockBase w) :: rest → decode w = .ok i →
    step s = exec i { s with pending := rest, readData := none }

/-- R13, R231: with no host event waiting, a step changes nothing (the model's reading, log 2). -/
def Obligations.IdleStepChangesNothing : Prop :=
  ∀ s : State, admissible s.params = true → s.pending = [] → step s = .next s

/-- R5, R6, R160, R161, R162: parameters are admissible exactly when the numbers are legal, both images are functions from
the 128 codes to code points up to 0x10FFFF, DEF_DEC has the four fixed entries and DEF_DEC is injective on its defined
entries. THE MODEL'S CHOICE (log 17): R162's words are "a Unicode scalar value, 0..0x10FFFF", and the clause on the range
admits every value up to 0x10FFFF, the surrogates 0xD800..0xDFFF among them. -/
def Obligations.AdmissibleExactlyByRules : Prop :=
  ∀ p : Params, admissible p = true ↔
    (p.blockBase % 0x4000 = 0 ∧ p.bufBytes % 4 = 0 ∧ 8 ≤ p.bufBytes ∧ p.bufBytes ≤ 4096 ∧ p.centuryPivot ≤ 100 ∧
      p.tzQhMax ≤ 79) ∧
    (p.defDec.length = 128 ∧ ∀ (c : Nat) (q : CodePoint), p.defDec[c]? = some (some q) → q.toNat ≤ 0x10FFFF) ∧
    (p.extDec.length = 128 ∧ ∀ (c : Nat) (q : CodePoint), p.extDec[c]? = some (some q) → q.toNat ≤ 0x10FFFF) ∧
    (p.defDec[0x0A]? = some (some 0x0A) ∧ p.defDec[0x0D]? = some (some 0x0D) ∧ p.defDec[0x1B]? = some (some 0x1B) ∧
      p.defDec[0x20]? = some (some 0x20)) ∧
    (∀ (c c' : Nat) (q : CodePoint), p.defDec[c]? = some (some q) → p.defDec[c']? = some (some q) → c = c')

/-- R162, 93_implementation_defined.md U5: the model refuses an image that is not admissible; it refuses numeric
parameters outside R5's legal values in the same way (log 6). -/
def Obligations.InadmissibleParametersRefused : Prop :=
  ∀ s : State, admissible s.params = false → step s = .refused .inadmissibleParameters

/-- The invariant of the block (`State.Inv`) is kept by every step from every state that has it. -/
def Obligations.StepKeepsInvariant : Prop :=
  ∀ s t : State, s.Inv → step s = .next t → t.Inv

/-- The state right after reset meets the invariant, for all admissible parameters and every draw of the buffer bytes, and
so does `State.reset`. -/
def Obligations.ResetMeetsInvariant : Prop :=
  (∀ (p : Params) (d : Nat), admissible p = true → (State.resetWith p d).Inv) ∧ State.reset.Inv

/-- R37: no step writes the ROM tables or any parameter; they hold their values through every reset. -/
def Obligations.StepKeepsParameters : Prop :=
  ∀ s t : State, step s = .next t → t.params = s.params

/-- R35: the block never writes SRCBUF, whatever word is written to CMD. -/
def Obligations.CommandsNeverWriteSource : Prop :=
  ∀ (s t : State) (w : Word) (rest : List HostEvent),
    s.pending = .access (.write 4 s.params.blockBase w) :: rest → step s = .next t →
    t.srcBuf = s.srcBuf ∧ t.draws = s.draws ∧ ∀ i, t.srcByte i = s.srcByte i

/-! ## Reset -/

/-- R220, R221: asserting reset puts every register to its reset value and leaves every buffer byte unspecified (no byte is
known), the ROM and the parameters unchanged; an access that coincides with it has no effect. -/
def Obligations.ResetEventClearsRegisters : Prop :=
  ∀ (s : State) (lost : Option HostAccess) (rest : List HostEvent), admissible s.params = true →
    s.pending = .reset lost :: rest →
    ∃ t, step s = .next t ∧ t.params = s.params ∧ t.status = ⟨false, .ok⟩ ∧ t.errVal = 0 ∧ t.srcLen = 0 ∧ t.dstLim = 0 ∧
      t.outLen = 0 ∧ t.consumed = 0 ∧ t.ts = ⟨0, 0, 0, 0, 0, 0, 0⟩ ∧ t.csIn = 0 ∧ t.csOut = 0 ∧
      (∀ i, t.srcBuf.read i = none) ∧ (∀ i, t.dstBuf.read i = none) ∧ t.pending = rest ∧ t.readData = none

/-- R39, R221: what each register reads as right after reset, at every choice of the parameters. -/
def Obligations.ResetRegisterReads : Prop :=
  ∀ (p : Params) (d : Nat) (r : RegName),
    (r ≠ .config → readRegister r (State.resetWith p d) = 0) ∧
    readRegister .config (State.resetWith p d) = configWord p

/-! ## The host window -/

/-- R21 to R34, R42: what a 32-bit read of each register returns, with no other effect. STATUS has DONE in bit 8 and ERR in
bits [3:0]; CONFIG reports the parameters; TS_OFFSET is sign-extended; CMD reads 0. -/
def Obligations.RegisterReads : Prop :=
  ∀ (s : State) (rest : List HostEvent) (off : Nat) (v : Word), admissible s.params = true →
    s.pending = .access (.read 4 (s.params.blockBase + off)) :: rest →
    (off, v) ∈ [(0x000, 0), (0x004, (if s.status.done then 0x100 else 0) + s.status.err.code.setWidth 32),
      (0x008, s.errVal), (0x00C, s.srcLen), (0x010, s.dstLim), (0x014, s.outLen), (0x018, s.consumed),
      (0x01C, BitVec.ofNat 32 (s.params.bufBytes + 0x10000 * s.params.centuryPivot + 0x1000000 * s.params.tzQhMax)),
      (0x020, s.ts.year.setWidth 32), (0x024, s.ts.month.setWidth 32), (0x028, s.ts.day.setWidth 32),
      (0x02C, s.ts.hour.setWidth 32), (0x030, s.ts.minute.setWidth 32), (0x034, s.ts.second.setWidth 32),
      (0x038, s.ts.offset.signExtend 32), (0x040, s.csIn), (0x044, s.csOut.setWidth 32)] →
    step s = .next { s with pending := rest, readData := some v }

/-- R25, R26, R30 to R33, R42: a 32-bit write to a read-write register stores the low bits of the word that its used field
has, and changes nothing else. -/
def Obligations.RegisterWrites : Prop :=
  ∀ (s t : State) (rest : List HostEvent) (off : Nat) (w : Word), admissible s.params = true →
    s.pending = .access (.write 4 (s.params.blockBase + off) w) :: rest →
    (off, t) ∈ [(0x00C, { s with srcLen := w }), (0x010, { s with dstLim := w }),
      (0x020, { s with ts := { s.ts with year := w.setWidth 16 } }),
      (0x024, { s with ts := { s.ts with month := w.setWidth 8 } }),
      (0x028, { s with ts := { s.ts with day := w.setWidth 8 } }),
      (0x02C, { s with ts := { s.ts with hour := w.setWidth 8 } }),
      (0x030, { s with ts := { s.ts with minute := w.setWidth 8 } }),
      (0x034, { s with ts := { s.ts with second := w.setWidth 8 } }),
      (0x038, { s with ts := { s.ts with offset := w.setWidth 16 } }), (0x040, { s with csIn := w })] →
    step s = .next { t with pending := rest, readData := none }

/-- R42: a host write to a read-only register (STATUS, ERRVAL, OUT_LEN, CONSUMED, CONFIG, CS_OUT) changes no state. -/
def Obligations.ReadOnlyWritesIgnored : Prop :=
  ∀ (s : State) (rest : List HostEvent) (off : Nat) (w : Word), admissible s.params = true →
    s.pending = .access (.write 4 (s.params.blockBase + off) w) :: rest →
    off ∈ [0x004, 0x008, 0x014, 0x018, 0x01C, 0x044] →
    step s = .next { s with pending := rest, readData := none }

/-- R53, and R51's last sentence: a reserved offset, and a word of a buffer window at or beyond BUF_BYTES, reads 0 and
ignores the write. -/
def Obligations.UnusedOffsetsReadZeroIgnoreWrites : Prop :=
  ∀ (s : State) (rest : List HostEvent) (off : Nat) (w : Word), admissible s.params = true → off % 4 = 0 →
    (off < 0x100 ∧ off ∉ [0x000, 0x004, 0x008, 0x00C, 0x010, 0x014, 0x018, 0x01C, 0x020, 0x024, 0x028, 0x02C, 0x030,
        0x034, 0x038, 0x040, 0x044] ∨
      (0x100 ≤ off ∧ off < 0x1000) ∨ (0x1000 + s.params.bufBytes ≤ off ∧ off < 0x2000) ∨
      (0x2000 + s.params.bufBytes ≤ off ∧ off < 0x3000) ∨ (0x3000 ≤ off ∧ off < 0x4000)) →
    (s.pending = .access (.read 4 (s.params.blockBase + off)) :: rest →
      step s = .next { s with pending := rest, readData := some 0 }) ∧
    (s.pending = .access (.write 4 (s.params.blockBase + off) w) :: rest →
      step s = .next { s with pending := rest, readData := none })

/-- R51, for SRCBUF: word `4k` holds the bytes `4k .. 4k+3`, little-endian; a read returns them, a write sets them and
changes nothing else. -/
def Obligations.SourceWindowWords : Prop :=
  ∀ (s : State) (rest : List HostEvent) (k : Nat) (w : Word), admissible s.params = true → 4 * k < s.params.bufBytes →
    (s.pending = .access (.read 4 (s.params.blockBase + (0x1000 + 4 * k))) :: rest →
      ∃ v : Word, step s = .next { s with pending := rest, readData := some v } ∧
        ∀ j, j < 4 → v.extractLsb' (8 * j) 8 = s.srcByte (4 * k + j)) ∧
    (s.pending = .access (.write 4 (s.params.blockBase + (0x1000 + 4 * k)) w) :: rest →
      ∃ t, step s = .next t ∧ t = { s with pending := rest, readData := none, srcBuf := t.srcBuf } ∧
        (∀ j, j < 4 → t.srcByte (4 * k + j) = w.extractLsb' (8 * j) 8) ∧
        ∀ i, i < 4 * k ∨ 4 * k + 4 ≤ i → t.srcByte i = s.srcByte i)

/-- R51, for DSTBUF. -/
def Obligations.DestinationWindowWords : Prop :=
  ∀ (s : State) (rest : List HostEvent) (k : Nat) (w : Word), admissible s.params = true → 4 * k < s.params.bufBytes →
    (s.pending = .access (.read 4 (s.params.blockBase + (0x2000 + 4 * k))) :: rest →
      ∃ v : Word, step s = .next { s with pending := rest, readData := some v } ∧
        ∀ j, j < 4 → v.extractLsb' (8 * j) 8 = s.dstByte (4 * k + j)) ∧
    (s.pending = .access (.write 4 (s.params.blockBase + (0x2000 + 4 * k)) w) :: rest →
      ∃ t, step s = .next t ∧ t = { s with pending := rest, readData := none, dstBuf := t.dstBuf } ∧
        (∀ j, j < 4 → t.dstByte (4 * k + j) = w.extractLsb' (8 * j) 8) ∧
        ∀ i, i < 4 * k ∨ 4 * k + 4 ≤ i → t.dstByte i = s.dstByte i)

/-- R57 on the two buffers: a read sees the write the block received just before it. -/
def Obligations.BufferWordReadsBack : Prop :=
  ∀ (s : State) (rest : List HostEvent) (k base : Nat) (w : Word), admissible s.params = true →
    4 * k < s.params.bufBytes → base = 0x1000 ∨ base = 0x2000 →
    s.pending = .access (.write 4 (s.params.blockBase + (base + 4 * k)) w) ::
      .access (.read 4 (s.params.blockBase + (base + 4 * k))) :: rest →
    ∃ t u, step s = .next t ∧ step t = .next u ∧ u.readData = some w ∧ u.pending = rest

/-- R52, R60: an access to the window of a width other than 32 bits or at an offset that is not a multiple of 4, and an
instruction fetch from it, is a bus error at which the run faults. -/
def Obligations.UnsupportedAccessFaults : Prop :=
  ∀ (s : State) (a : HostAccess) (rest : List HostEvent) (off size : Nat) (w : Word), admissible s.params = true →
    off < 0x4000 → s.pending = .access a :: rest →
    ((size ≠ 4 ∨ off % 4 ≠ 0) ∧
        (a = .read size (s.params.blockBase + off) ∨ a = .write size (s.params.blockBase + off) w) ∨
      a = .fetch (s.params.blockBase + off)) →
    step s = .fault (.busError a)

/-- The model's choice (log 11), from R50's extent of the window: an access whose address is not in the window is no access
of the block and stops the run. -/
def Obligations.AccessOutsideWindowFaults : Prop :=
  ∀ (s : State) (a : HostAccess) (rest : List HostEvent) (addr size : Nat) (w : Word), admissible s.params = true →
    s.pending = .access a :: rest → (addr < s.params.blockBase ∨ s.params.blockBase + 0x4000 ≤ addr) →
    (a = .read size addr ∨ a = .write size addr w ∨ a = .fetch addr) → step s = .fault (.outsideWindow a)

/-- R55: no read has a side effect: a read that completes changes only the host's list and the data bus. -/
def Obligations.ReadsChangeNothing : Prop :=
  ∀ (s t : State) (rest : List HostEvent) (size addr : Nat), s.pending = .access (.read size addr) :: rest →
    step s = .next t → ∃ v, t = { s with pending := rest, readData := some v }

/-- R228, R83 (POLL): every command completes within its CMD write, so one read of STATUS right after a CMD write of any
word, legal or not, shows DONE = 1 and the outcome of that command. -/
def Obligations.PollAfterCommandShowsDone : Prop :=
  ∀ (s : State) (w : Word) (rest : List HostEvent), admissible s.params = true →
    s.pending = .access (.write 4 s.params.blockBase w) :: .access (.read 4 (s.params.blockBase + 0x004)) :: rest →
    ∃ t u v, step s = .next t ∧ step t = .next u ∧ u.readData = some v ∧ v.getLsbD 8 = true ∧
      v.extractLsb' 0 4 = t.status.err.code ∧ u.pending = rest

/-- R83 (LDSRC): the accesses the pseudo-instruction stands for put the bytes at SRC[0], SRC[1], ..., fill the last word with
0x00, and change nothing else; in particular they do not write SRC_LEN. -/
def Obligations.LdsrcLoadsSource : Prop :=
  ∀ (s : State) (bs : List Byte) (rest : List HostEvent), admissible s.params = true → bs.length ≤ s.params.bufBytes →
    s.pending = hostLdsrc s.params.blockBase bs ++ rest →
    ∃ t : State, Host.Core.run Sys2Proof.core ((bs.length + 3) / 4) s = .next t ∧
      t = { s with pending := rest, readData := t.readData, srcBuf := t.srcBuf } ∧
      ∀ i, t.srcByte i =
        if i < bs.length then bs.getD i 0 else if i < 4 * ((bs.length + 3) / 4) then 0 else s.srcByte i

/-! ## How commands end -/

/-- R203: a command that ends with an error writes STATUS, ERRVAL, OUT_LEN = 0 and CONSUMED = 0 and nothing else. -/
def Obligations.ErrorsAreAllOrNothing : Prop :=
  ∀ (i : Instr) (s t : State), exec i s = .next t → t.status.err ≠ .ok →
    t = { s with status := ⟨true, t.status.err⟩, errVal := t.errVal, outLen := 0, consumed := 0 }

/-- R204, R207: every command, started in any state, ends with the machine going on, DONE = 1, and ERRVAL = 0 where it
ends `ok`. -/
def Obligations.CommandsAlwaysComplete : Prop :=
  ∀ (i : Instr) (s : State), ∃ t, exec i s = .next t ∧ t.status.done = true ∧ (t.status.err = .ok → t.errVal = 0)

/-- The "raised by" column of R200: a command that ends with an error ends with one of its kinds. -/
def Obligations.ErrorKindsByCommand : Prop :=
  ∀ (i : Instr) (s t : State), exec i s = .next t → t.status.err ≠ .ok →
    match i with
    | .denc => t.status.err = .invalidDigit ∨ t.status.err = .badLength
    | .ddec => t.status.err = .missingFill ∨ t.status.err = .badLength
    | .tsenc => t.status.err = .invalidInteger
    | .tsdec => t.status.err = .underflow ∨ t.status.err = .invalidOctet ∨ t.status.err = .badLength
    | .csdd => t.status.err = .notDecodable
    | .csde => t.status.err = .notDecodable
    | .csed => t.status.err = .notEncodable
    | .csee => t.status.err = .notEncodable

/-- R23 and the codes of R200: DONE in bit 8, ERR in bits [3:0], every other bit of STATUS 0. -/
def Obligations.StatusWordLayout : Prop :=
  (∀ st : Status, st.word.toNat = (if st.done then 256 else 0) + st.err.code.toNat) ∧
    ErrKind.ok.code = 0 ∧ ErrKind.invalidDigit.code = 1 ∧ ErrKind.missingFill.code = 2 ∧ ErrKind.underflow.code = 3 ∧
    ErrKind.invalidOctet.code = 4 ∧ ErrKind.invalidInteger.code = 5 ∧ ErrKind.notEncodable.code = 6 ∧
    ErrKind.notDecodable.code = 7 ∧ ErrKind.illegalCommand.code = 8 ∧ ErrKind.badLength.code = 9

/-- R201: SRC_LEN above BUF_BYTES ends DENC, DDEC and TSDEC with BAD_LENGTH(SRC_LEN); DST_LIM above BUF_BYTES ends DDEC,
after the SRC_LEN check, with BAD_LENGTH(DST_LIM). -/
def Obligations.BadLengthReports : Prop :=
  ∀ s : State,
    (s.params.bufBytes < s.srcLen.toNat → ∀ i : Instr, i = .denc ∨ i = .ddec ∨ i = .tsdec →
      exec i s = .next { s with status := ⟨true, .badLength⟩, errVal := s.srcLen, outLen := 0, consumed := 0 }) ∧
    (s.srcLen.toNat ≤ s.params.bufBytes → s.params.bufBytes < s.dstLim.toNat →
      exec .ddec s = .next { s with status := ⟨true, .badLength⟩, errVal := s.dstLim, outLen := 0, consumed := 0 })

/-- The frame of the three commands that store to DSTBUF (R36, R74, R229): they store DST[0 .. OUT_LEN-1] and leave every
other byte; beside DSTBUF only STATUS, ERRVAL, OUT_LEN and CONSUMED are written. -/
def Obligations.StoringCommandsFrame : Prop :=
  ∀ (i : Instr) (s t : State), admissible s.params = true → i = .denc ∨ i = .ddec ∨ i = .tsenc → exec i s = .next t →
    t = { s with status := t.status, errVal := t.errVal, outLen := t.outLen, consumed := t.consumed, dstBuf := t.dstBuf } ∧
    (∀ a, t.outLen.toNat ≤ a → t.dstByte a = s.dstByte a) ∧ ∀ a, t.srcByte a = s.srcByte a

/-- The frame of the commands that store no byte (R36, R74): TSDEC writes the TS registers, the charset commands CS_OUT;
beside them only STATUS, ERRVAL, OUT_LEN and CONSUMED are written, and every byte of both buffers is left. -/
def Obligations.NonStoringCommandsFrame : Prop :=
  ∀ (i : Instr) (s t : State), exec i s = .next t →
    (i = .tsdec →
      t = { s with status := t.status, errVal := t.errVal, outLen := t.outLen, consumed := t.consumed, ts := t.ts }) ∧
    (i = .csdd ∨ i = .csde ∨ i = .csed ∨ i = .csee →
      t = { s with status := t.status, errVal := t.errVal, outLen := t.outLen, consumed := t.consumed, csOut := t.csOut }) ∧
    (i = .tsdec ∨ i = .csdd ∨ i = .csde ∨ i = .csed ∨ i = .csee →
      ∀ a, t.dstByte a = s.dstByte a ∧ t.srcByte a = s.srcByte a)

/-- R38, R40, R74: a command reads only the operands R74 names (SRC_LEN bytes of SRCBUF for DENC and DDEC, seven for TSDEC)
and the ROM. Two states that agree on them give the same outcome and the same results, whatever else they hold: STATUS,
earlier results, DSTBUF, the other registers and bytes, what the host does next. -/
def Obligations.CommandsReadOnlyTheirOperands : Prop :=
  ∀ (i : Instr) (s u s' u' : State), u.params = s.params → exec i s = .next s' → exec i u = .next u' →
    (match i with
      | .denc => u.srcLen = s.srcLen ∧ ∀ k, k < s.srcLen.toNat → u.srcByte k = s.srcByte k
      | .ddec => u.srcLen = s.srcLen ∧ u.dstLim = s.dstLim ∧ ∀ k, k < s.srcLen.toNat → u.srcByte k = s.srcByte k
      | .tsenc => u.ts = s.ts
      | .tsdec => u.srcLen = s.srcLen ∧ ∀ k, k < 7 → u.srcByte k = s.srcByte k
      | .csdd => u.csIn = s.csIn
      | .csde => u.csIn = s.csIn
      | .csed => u.csIn = s.csIn
      | .csee => u.csIn = s.csIn) →
    u'.status = s'.status ∧ u'.errVal = s'.errVal ∧ u'.outLen = s'.outLen ∧ u'.consumed = s'.consumed ∧
      (∀ k, k < s'.outLen.toNat → u'.dstByte k = s'.dstByte k) ∧
      (s'.status.err = .ok → i = .tsdec → u'.ts = s'.ts) ∧
      (s'.status.err = .ok → i = .csdd ∨ i = .csde ∨ i = .csed ∨ i = .csee → u'.csOut = s'.csOut)

/-! ## The digit unit -/

/-- R101: the digit alphabet, a bijection between the fifteen digit nibbles and their symbols; the fill value has none. -/
def Obligations.DigitAlphabet : Prop :=
  (∀ d : Nibble, symOf d =
    if d.toNat ≤ 9 then some (BitVec.ofNat 8 (0x30 + d.toNat)) else if d = 0xA then some 0x2A else if d = 0xB then some 0x23
    else if d = 0xC then some 0x61 else if d = 0xD then some 0x62 else if d = 0xE then some 0x63 else none) ∧
  ∀ (x : Byte) (d : Nibble), nibOf x = some d ↔ symOf d = some x

/-- R102, R103: pair packing puts the earlier digit in the low nibble; `lo` and `hi` undo it; the nibble swap exchanges the
two and is its own inverse. -/
def Obligations.PairPackingAndSwap : Prop :=
  (∀ d0 d1 : Nibble, (pack d0 d1).toNat = 16 * d1.toNat + d0.toNat ∧ lo (pack d0 d1) = d0 ∧ hi (pack d0 d1) = d1) ∧
    ∀ b : Byte, swapNibbles b = pack (hi b) (lo b) ∧ swapNibbles (swapNibbles b) = b

/-- R120, all of DENC: its command word; BAD_LENGTH; else INVALID_DIGIT for the lowest index whose byte is no symbol; else
the packed digits, OUT_LEN = ceil(n/2) and CONSUMED = n, with the fill value above an odd last digit. -/
def Obligations.DencMeaning : Prop :=
  decode 0x00000001 = .ok .denc ∧ ∀ s : State,
    (s.params.bufBytes < s.srcLen.toNat →
      exec .denc s = .next { s with status := ⟨true, .badLength⟩, errVal := s.srcLen, outLen := 0, consumed := 0 }) ∧
    (∀ i : Nat, s.srcLen.toNat ≤ s.params.bufBytes → i < s.srcLen.toNat → nibOf (s.srcByte i) = none →
      (∀ j, j < i → nibOf (s.srcByte j) ≠ none) →
      exec .denc s = .next { s with
        status := ⟨true, .invalidDigit⟩, errVal := (s.srcByte i).setWidth 32, outLen := 0, consumed := 0 }) ∧
    (∀ d : Nat → Nibble, s.srcLen.toNat ≤ s.params.bufBytes →
      (∀ i, i < s.srcLen.toNat → nibOf (s.srcByte i) = some (d i)) →
      ∃ t, exec .denc s = .next t ∧
        t = { s with status := ⟨true, .ok⟩, errVal := 0, outLen := t.outLen, consumed := s.srcLen, dstBuf := t.dstBuf } ∧
        t.outLen.toNat = (s.srcLen.toNat + 1) / 2 ∧
        (∀ k, 2 * k + 1 < s.srcLen.toNat → (t.dstByte k).toNat = 16 * (d (2 * k + 1)).toNat + (d (2 * k)).toNat) ∧
        (∀ k, 2 * k + 1 = s.srcLen.toNat → (t.dstByte k).toNat = 16 * 0xF + (d (2 * k)).toNat) ∧
        ∀ k, t.outLen.toNat ≤ k → t.dstByte k = s.dstByte k)

/-- An inference the spec marks as its own, R121 "[derived: from rule R120]": for every digit string DENC accepts, OUT_LEN
= ceil(n/2); a full pair is packed from two digits, neither of them the fill value; an odd last digit is packed with the
fill value above it. So the fill value appears in a DENC output exactly once, as the high nibble of the last byte, if and
only if the number of digits is odd. -/
def Obligations.DencFillPlacement : Prop :=
  ∀ s t : State, exec .denc s = .next t → t.status.err = .ok →
    t.outLen.toNat = (s.srcLen.toNat + 1) / 2 ∧
    (∀ k, k < s.srcLen.toNat / 2 → ∃ d0 d1, nibOf (s.srcByte (2 * k)) = some d0 ∧ nibOf (s.srcByte (2 * k + 1)) = some d1 ∧
      t.dstByte k = pack d0 d1 ∧ d0 ≠ fill ∧ d1 ≠ fill) ∧
    (∀ k, s.srcLen.toNat = 2 * k + 1 → ∃ d0, nibOf (s.srcByte (2 * k)) = some d0 ∧ t.dstByte k = pack d0 fill) ∧
    ∀ k, k < t.outLen.toNat → lo (t.dstByte k) ≠ fill ∧
      (hi (t.dstByte k) = fill ↔ s.srcLen.toNat % 2 = 1 ∧ k + 1 = t.outLen.toNat)

/-- R122, all of DDEC: its command word; BAD_LENGTH for SRC_LEN, else for DST_LIM; else MISSING_FILL for the first fill
among the nibbles the loop places (a fill above the final byte's digit is terminal and not placed); else the first
`min(DST_LIM, decodable length)` digits, low nibble before high nibble. -/
def Obligations.DdecMeaning : Prop :=
  decode 0x00000002 = .ok .ddec ∧ ∀ s : State,
    (s.params.bufBytes < s.srcLen.toNat →
      exec .ddec s = .next { s with status := ⟨true, .badLength⟩, errVal := s.srcLen, outLen := 0, consumed := 0 }) ∧
    (s.srcLen.toNat ≤ s.params.bufBytes → s.params.bufBytes < s.dstLim.toNat →
      exec .ddec s = .next { s with status := ⟨true, .badLength⟩, errVal := s.dstLim, outLen := 0, consumed := 0 }) ∧
    (∀ j : Nat, s.srcLen.toNat ≤ s.params.bufBytes → s.dstLim.toNat ≤ s.params.bufBytes →
      j < min s.dstLim.toNat (decodableLength s) → srcNibble s j = fill → (∀ i, i < j → srcNibble s i ≠ fill) →
      exec .ddec s = .next { s with
        status := ⟨true, .missingFill⟩, errVal := (s.srcByte (j / 2)).setWidth 32, outLen := 0, consumed := 0 }) ∧
    (s.srcLen.toNat ≤ s.params.bufBytes → s.dstLim.toNat ≤ s.params.bufBytes →
      (∀ j, j < min s.dstLim.toNat (decodableLength s) → srcNibble s j ≠ fill) →
      ∃ t, exec .ddec s = .next t ∧
        t = { s with status := ⟨true, .ok⟩, errVal := 0, outLen := t.outLen, consumed := t.consumed, dstBuf := t.dstBuf } ∧
        t.outLen.toNat = min s.dstLim.toNat (decodableLength s) ∧ t.consumed.toNat = (t.outLen.toNat + 1) / 2 ∧
        (∀ j, j < t.outLen.toNat → symOf (srcNibble s j) = some (t.dstByte j)) ∧
        ∀ j, t.outLen.toNat ≤ j → t.dstByte j = s.dstByte j)

/-- An inference the spec marks as its own, R124 "[derived: from rule R122]": on success CONSUMED is half of OUT_LEN,
rounded up. -/
def Obligations.DdecConsumedIsHalfOfOutLen : Prop :=
  ∀ s t : State, admissible s.params = true → exec .ddec s = .next t → t.status.err = .ok →
    t.consumed.toNat = (t.outLen.toNat + 1) / 2

/-- An inference the spec marks as its own, R126 "[derived: from rule R120 and rule R122]", first two laws: DDEC of DENC's
output, with a limit of at least the string's length, gives the string back and consumes the whole output. -/
def Obligations.DigitStringRoundTrip : Prop :=
  ∀ s : State, s.srcLen.toNat ≤ s.params.bufBytes → (∀ i, i < s.srcLen.toNat → nibOf (s.srcByte i) ≠ none) →
    ∃ t, exec .denc s = .next t ∧ t.status.err = .ok ∧
      ∀ u : State, u.params = s.params → u.srcLen = t.outLen → s.srcLen.toNat ≤ u.dstLim.toNat →
        u.dstLim.toNat ≤ u.params.bufBytes → (∀ k, k < t.outLen.toNat → u.srcByte k = t.dstByte k) →
        ∃ v, exec .ddec u = .next v ∧ v.status.err = .ok ∧ v.outLen = s.srcLen ∧ v.consumed = t.outLen ∧
          ∀ i, i < s.srcLen.toNat → v.dstByte i = s.srcByte i

/-- An inference the spec marks as its own, R126 "[derived: from rule R120 and rule R122]", third law: DENC of DDEC's
output reproduces every packed buffer that DDEC accepts with a limit no smaller than the digits it can hold. -/
def Obligations.PackedBufferRoundTrip : Prop :=
  ∀ s t : State, admissible s.params = true → 2 * s.srcLen.toNat ≤ s.dstLim.toNat → exec .ddec s = .next t →
    t.status.err = .ok →
    ∀ u : State, u.params = s.params → u.srcLen = t.outLen → (∀ k, k < t.outLen.toNat → u.srcByte k = t.dstByte k) →
      ∃ v, exec .denc u = .next v ∧ v.status.err = .ok ∧ v.outLen = s.srcLen ∧ v.consumed = t.outLen ∧
        ∀ k, k < s.srcLen.toNat → v.dstByte k = s.srcByte k

/-- An inference the spec marks as its own, R127 "[derived: from rule R124]" and R226: a decode cut by an even limit and
resumed at SRC[CONSUMED] loses no digit: the two outputs one after the other are the output of one decode whose limit is
the sum of the two. -/
def Obligations.EvenLimitResumptionLosesNothing : Prop :=
  ∀ s t u v w : State, admissible s.params = true → s.dstLim.toNat % 2 = 0 → exec .ddec s = .next t → t.status.err = .ok →
    u.params = s.params → u.srcLen.toNat = s.srcLen.toNat - t.consumed.toNat →
    (∀ i, i < u.srcLen.toNat → u.srcByte i = s.srcByte (t.consumed.toNat + i)) →
    exec .ddec u = .next v → v.status.err = .ok →
    w.params = s.params → w.srcLen = s.srcLen → (∀ i, i < s.srcLen.toNat → w.srcByte i = s.srcByte i) →
    w.dstLim.toNat = s.dstLim.toNat + u.dstLim.toNat → w.dstLim.toNat ≤ w.params.bufBytes →
    ∃ x, exec .ddec w = .next x ∧ x.status.err = .ok ∧ x.outLen.toNat = t.outLen.toNat + v.outLen.toNat ∧
      (∀ j, j < t.outLen.toNat → x.dstByte j = t.dstByte j) ∧
      ∀ j, j < v.outLen.toNat → x.dstByte (t.outLen.toNat + j) = v.dstByte j

/-- An inference the spec marks as its own, R127 "[derived: from rule R124]" and R226: a decode cut by an odd limit counts
the byte whose high digit it could not place; a host that resumes at SRC[CONSUMED] goes on with the digit after that one,
so it is in neither output. -/
def Obligations.OddLimitResumptionLosesOneDigit : Prop :=
  ∀ s t u v : State, admissible s.params = true → s.dstLim.toNat % 2 = 1 → s.dstLim.toNat < decodableLength s →
    exec .ddec s = .next t → t.status.err = .ok → u.srcLen.toNat = s.srcLen.toNat - t.consumed.toNat →
    (∀ i, i < u.srcLen.toNat → u.srcByte i = s.srcByte (t.consumed.toNat + i)) →
    exec .ddec u = .next v → v.status.err = .ok →
    t.outLen = s.dstLim ∧ 2 * t.consumed.toNat = t.outLen.toNat + 1 ∧
      srcNibble s t.outLen.toNat = hi (s.srcByte (t.consumed.toNat - 1)) ∧
      (∀ j, j < t.outLen.toNat → symOf (srcNibble s j) = some (t.dstByte j)) ∧
      ∀ j, j < v.outLen.toNat → symOf (srcNibble s (t.outLen.toNat + 1 + j)) = some (v.dstByte j)

/-! ## The timestamp unit -/

/-- An inference the spec marks as its own, R106 "[derived: from rule R104 and rule R105]": encoding and decoding a BCD
pair are inverse to each other. -/
def Obligations.BcdPairRoundTrip : Prop :=
  (∀ v : Nat, v ≤ 99 → ∃ b, bcdEnc v = .ok b ∧ bcdDec b = .ok v) ∧
    ∀ b : Byte, lo b ≤ 9 → hi b ≤ 9 → ∃ v, bcdDec b = .ok v ∧ bcdEnc v = .ok b

/-- An inference the spec marks as its own, R109 "[derived: from rule R106, rule R107 and rule R108]": decoding an encoded
quarter-hour count gives it back; encoding a decoded byte gives the byte back but for the negative zero 0x08, which gives
0x00, and a magnitude above TZ_QH_MAX, which raises. -/
def Obligations.OffsetByteRoundTrip : Prop :=
  ∀ maxQh : Nat, maxQh ≤ 79 →
    (∀ q : Int, q.natAbs ≤ maxQh → ∃ b, tzEnc maxQh q = .ok b ∧ tzDec b = .ok q) ∧
    ∀ (b : Byte) (q : Int), tzDec b = .ok q →
      (q.natAbs ≤ maxQh → tzEnc maxQh q = .ok (if b = 0x08 then 0x00 else b)) ∧
      (maxQh < q.natAbs → ∃ e, tzEnc maxQh q = .error e)

/-- An inference the spec marks as its own, R112 "[derived: from rule R110 and rule R111]": a year in the window comes
back from its two digits; any other differs by a non-zero multiple of 100. -/
def Obligations.CenturyWindow : Prop :=
  ∀ pivot y : Nat, pivot ≤ 100 →
    (1900 + pivot ≤ y ∧ y < 2000 + pivot → century pivot (y % 100) = y) ∧
    (¬ (1900 + pivot ≤ y ∧ y < 2000 + pivot) →
      ∃ k : Int, k ≠ 0 ∧ (century pivot (y % 100) : Int) - (y : Int) = 100 * k)

/-- R140, all of TSENC: its command word; INVALID_INTEGER for the first field, in wire order and the offset last, that
does not fit; else the seven bytes, each pair with its tens in the low nibble, the offset's sign in bit 3. -/
def Obligations.TsencMeaning : Prop :=
  decode 0x00000003 = .ok .tsenc ∧ ∀ s : State, admissible s.params = true →
    (∀ k : Nat, k < 6 → 99 < tsField s.ts k → (∀ j, j < k → tsField s.ts j ≤ 99) →
      exec .tsenc s = .next { s with
        status := ⟨true, .invalidInteger⟩, errVal := BitVec.ofNat 32 (tsField s.ts k), outLen := 0, consumed := 0 }) ∧
    (∀ q : Int, q = s.ts.offset.toInt.tdiv 15 → (∀ k, k < 6 → tsField s.ts k ≤ 99) →
      (s.params.tzQhMax < q.natAbs →
        exec .tsenc s = .next { s with
          status := ⟨true, .invalidInteger⟩, errVal := BitVec.ofNat 32 q.natAbs, outLen := 0, consumed := 0 }) ∧
      (q.natAbs ≤ s.params.tzQhMax →
        ∃ t, exec .tsenc s = .next t ∧
          t = { s with status := ⟨true, .ok⟩, errVal := 0, outLen := 7, consumed := 0, dstBuf := t.dstBuf } ∧
          (∀ k, k < 6 → (t.dstByte k).toNat = 16 * (tsField s.ts k % 10) + tsField s.ts k / 10) ∧
          (t.dstByte 6).toNat = 16 * (q.natAbs % 10) + q.natAbs / 10 + (if q < 0 then 8 else 0) ∧
          ∀ k, 7 ≤ k → t.dstByte k = s.dstByte k))

/-- R142: at the default TZ_QH_MAX = 79, TSENC accepts exactly the offsets from -1199 to 1199 minutes. -/
def Obligations.TsencOffsetRange : Prop :=
  ∀ s t : State, s.params.tzQhMax = 79 → (∀ k, k < 6 → tsField s.ts k ≤ 99) → exec .tsenc s = .next t →
    (t.status.err = .ok ↔ -1199 ≤ s.ts.offset.toInt ∧ s.ts.offset.toInt ≤ 1199) ∧
    (t.status.err ≠ .ok → t.status.err = .invalidInteger ∧ t.errVal.toNat = (s.ts.offset.toInt.tdiv 15).natAbs)

/-- R145, all of TSDEC: its command word; BAD_LENGTH, UNDERFLOW, INVALID_OCTET for the first byte with a nibble that is no
digit (the sixth with its sign masked off); else the TS registers, and CONSUMED = 7. -/
def Obligations.TsdecMeaning : Prop :=
  decode 0x00000004 = .ok .tsdec ∧ ∀ s : State,
    (s.params.bufBytes < s.srcLen.toNat →
      exec .tsdec s = .next { s with status := ⟨true, .badLength⟩, errVal := s.srcLen, outLen := 0, consumed := 0 }) ∧
    (s.srcLen.toNat ≤ s.params.bufBytes → s.srcLen.toNat < 7 →
      exec .tsdec s = .next { s with status := ⟨true, .underflow⟩, errVal := s.srcLen, outLen := 0, consumed := 0 }) ∧
    (∀ k : Nat, s.srcLen.toNat ≤ s.params.bufBytes → 7 ≤ s.srcLen.toNat → k < 6 → ¬ isPair (s.srcByte k) →
      (∀ j, j < k → isPair (s.srcByte j)) →
      exec .tsdec s = .next { s with
        status := ⟨true, .invalidOctet⟩, errVal := (s.srcByte k).setWidth 32, outLen := 0, consumed := 0 }) ∧
    (s.srcLen.toNat ≤ s.params.bufBytes → 7 ≤ s.srcLen.toNat → (∀ k, k < 6 → isPair (s.srcByte k)) →
      9 < (s.srcByte 6).toNat / 16 →
      exec .tsdec s = .next { s with
        status := ⟨true, .invalidOctet⟩, errVal := (s.srcByte 6 &&& 0xF7).setWidth 32, outLen := 0, consumed := 0 }) ∧
    (s.srcLen.toNat ≤ s.params.bufBytes → 7 ≤ s.srcLen.toNat → (∀ k, k < 6 → isPair (s.srcByte k)) →
      (s.srcByte 6).toNat / 16 ≤ 9 →
      ∃ t, exec .tsdec s = .next t ∧
        t = { s with status := ⟨true, .ok⟩, errVal := 0, outLen := 0, consumed := 7, ts := t.ts } ∧
        t.ts.year.toNat = (if s.params.centuryPivot ≤ pairValue (s.srcByte 0) then 1900 else 2000) +
          pairValue (s.srcByte 0) ∧
        t.ts.month.toNat = pairValue (s.srcByte 1) ∧ t.ts.day.toNat = pairValue (s.srcByte 2) ∧
        t.ts.hour.toNat = pairValue (s.srcByte 3) ∧ t.ts.minute.toNat = pairValue (s.srcByte 4) ∧
        t.ts.second.toNat = pairValue (s.srcByte 5) ∧ t.ts.offset.toInt = 15 * quarterCount (s.srcByte 6))

/-- An inference the spec marks as its own, R150 "[derived: from rules R140 and R145 ...]": TSDEC of TSENC's seven bytes
restores every TS register, for a year in the window, fields up to 99 and an offset in range; where the offset is no
multiple of 15 it restores 15*trunc(m/15). -/
def Obligations.TimestampRoundTrip : Prop :=
  ∀ s : State, admissible s.params = true → 1900 + s.params.centuryPivot ≤ s.ts.year.toNat →
    s.ts.year.toNat < 2000 + s.params.centuryPivot → (∀ k, k < 6 → tsField s.ts k ≤ 99) →
    (s.ts.offset.toInt.tdiv 15).natAbs ≤ s.params.tzQhMax →
    ∃ t, exec .tsenc s = .next t ∧ t.status.err = .ok ∧
      ∀ u : State, u.params = s.params → u.srcLen = 7 → (∀ k, k < 7 → u.srcByte k = t.dstByte k) →
        ∃ v, exec .tsdec u = .next v ∧ v.status.err = .ok ∧
          v.ts = { s.ts with offset := v.ts.offset } ∧ v.ts.offset.toInt = 15 * s.ts.offset.toInt.tdiv 15 ∧
          (s.ts.offset.toInt % 15 = 0 → v.ts = s.ts)

/-! ## The charset ROM -/

/-- R163: the encoder derived from an image gives the smallest code whose entry is the code point, and none where no entry
is. -/
def Obligations.EncoderIsLowestCode : Prop :=
  ∀ (rom : List (Option CodePoint)) (p : Word), rom.length = 128 →
    (∀ c : Nat, romEncode rom p = some c ↔
      (∃ q : CodePoint, rom[c]? = some (some q) ∧ q.toNat = p.toNat) ∧
        ∀ (c' : Nat) (q : CodePoint), c' < c → rom[c']? = some (some q) → q.toNat ≠ p.toNat) ∧
    (romEncode rom p = none ↔ ∀ (c : Nat) (q : CodePoint), rom[c]? = some (some q) → q.toNat ≠ p.toNat)

/-- R166, R167: the command words; CSDD and CSDE answer the entry of the code CS_IN in their image, or
NOT_DECODABLE(CS_IN) where CS_IN is above 0x7F or the entry is undefined. -/
def Obligations.CharsetDecodeMeaning : Prop :=
  decode 0x00000005 = .ok .csdd ∧ decode 0x00000006 = .ok .csde ∧
  ∀ (i : Instr) (s : State) (rom : List (Option CodePoint)),
    (i = .csdd ∧ rom = s.params.defDec) ∨ (i = .csde ∧ rom = s.params.extDec) →
    (∀ p : CodePoint, s.csIn.toNat ≤ 0x7F → rom[s.csIn.toNat]? = some (some p) →
      exec i s = .next { s with status := ⟨true, .ok⟩, errVal := 0, outLen := 0, consumed := 0, csOut := p }) ∧
    (0x7F < s.csIn.toNat ∨ (∀ p : CodePoint, rom[s.csIn.toNat]? ≠ some (some p)) →
      exec i s = .next { s with status := ⟨true, .notDecodable⟩, errVal := s.csIn, outLen := 0, consumed := 0 })

/-- R168, R169: the command words; CSED and CSEE answer the smallest code whose entry in their image is the code point
CS_IN, or NOT_ENCODABLE(CS_IN) where there is none. -/
def Obligations.CharsetEncodeMeaning : Prop :=
  decode 0x00000007 = .ok .csed ∧ decode 0x00000008 = .ok .csee ∧
  ∀ (i : Instr) (s : State) (rom : List (Option CodePoint)), admissible s.params = true →
    (i = .csed ∧ rom = s.params.defDec) ∨ (i = .csee ∧ rom = s.params.extDec) →
    (∀ (c : Nat) (q : CodePoint), rom[c]? = some (some q) → q.toNat = s.csIn.toNat →
      (∀ (c' : Nat) (r : CodePoint), c' < c → rom[c']? = some (some r) → r.toNat ≠ s.csIn.toNat) →
      c ≤ 0x7F ∧ exec i s = .next { s with
        status := ⟨true, .ok⟩, errVal := 0, outLen := 0, consumed := 0, csOut := BitVec.ofNat 21 c }) ∧
    ((∀ (c : Nat) (q : CodePoint), rom[c]? = some (some q) → q.toNat ≠ s.csIn.toNat) →
      exec i s = .next { s with status := ⟨true, .notEncodable⟩, errVal := s.csIn, outLen := 0, consumed := 0 })

/-- R161 with R166 and R168: in every admissible image the four codes 0x0A, 0x0D, 0x1B and 0x20 decode to their own value
by CSDD, and encode to it by CSED. -/
def Obligations.FixedCodesInEveryImage : Prop :=
  ∀ (i : Instr) (s : State), admissible s.params = true → i = .csdd ∨ i = .csed →
    s.csIn.toNat ∈ [0x0A, 0x0D, 0x1B, 0x20] →
    exec i s = .next { s with
      status := ⟨true, .ok⟩, errVal := 0, outLen := 0, consumed := 0, csOut := s.csIn.setWidth 21 }

/-- An inference the spec marks as its own, R170(a) "[derived: from rule R162 and rule R163]": for every code that CSDD
decodes, CSED of the code point succeeds and returns that code. -/
def Obligations.DefaultTableReencodes : Prop :=
  ∀ s t u : State, admissible s.params = true → exec .csdd s = .next t → t.status.err = .ok → u.params = s.params →
    u.csIn = t.csOut.setWidth 32 →
    ∃ v, exec .csed u = .next v ∧ v.status.err = .ok ∧ v.csOut.toNat = s.csIn.toNat

/-- An inference the spec marks as its own, R170(b) "[derived: from rule R162 and rule R163]": for every code that CSDE
decodes, CSEE of the code point succeeds and returns the smallest code with that code point, which decodes to the same
code point. -/
def Obligations.ExtensionTableReencodesToLowest : Prop :=
  ∀ s t u : State, admissible s.params = true → exec .csde s = .next t → t.status.err = .ok → u.params = s.params →
    u.csIn = t.csOut.setWidth 32 →
    ∃ v, exec .csee u = .next v ∧ v.status.err = .ok ∧ v.csOut.toNat ≤ s.csIn.toNat ∧
      s.params.extDec[v.csOut.toNat]? = some (some t.csOut) ∧
      ∀ c : Nat, c < v.csOut.toNat → s.params.extDec[c]? ≠ some (some t.csOut)
end

