-- ==== Sys2Proof/Laws/Bcd.lean ====
section
/-! SUPPORT. One lemma per primitive of 40_bcd_primitives.md, in arithmetic terms. -/

namespace Sys2Proof.Machine

theorem fill_toNat : fill.toNat = 15 := rfl

theorem lo_toNat (b : Byte) : (lo b).toNat = b.toNat % 16 := by simp [lo]

theorem hi_toNat (b : Byte) : (hi b).toNat = b.toNat / 16 := by
  have := b.isLt
  simp only [hi, BitVec.extractLsb'_toNat, Nat.shiftRight_eq_div_pow]
  omega

theorem pack_toNat (d0 d1 : Nibble) : (pack d0 d1).toNat = 16 * d1.toNat + d0.toNat := by
  have := d0.isLt
  simp only [pack, BitVec.toNat_append]
  rw [← Nat.shiftLeft_add_eq_or_of_lt this, Nat.shiftLeft_eq]
  omega

@[simp] theorem lo_pack (d0 d1 : Nibble) : lo (pack d0 d1) = d0 := by
  have := d0.isLt
  apply BitVec.eq_of_toNat_eq
  rw [lo_toNat, pack_toNat]
  omega

@[simp] theorem hi_pack (d0 d1 : Nibble) : hi (pack d0 d1) = d1 := by
  have := d0.isLt
  apply BitVec.eq_of_toNat_eq
  rw [hi_toNat, pack_toNat]
  omega

@[simp] theorem pack_lo_hi (b : Byte) : pack (lo b) (hi b) = b := by
  apply BitVec.eq_of_toNat_eq
  rw [pack_toNat, lo_toNat, hi_toNat]
  omega

/-- The fill value, and it alone, has no symbol (R101). -/
theorem symOf_eq_none_iff (d : Nibble) : symOf d = none ↔ d = fill := by
  revert d; decide

theorem symOf_isSome {d : Nibble} (h : d ≠ fill) : ∃ x, symOf d = some x := by
  cases hd : symOf d with
  | none => exact absurd ((symOf_eq_none_iff d).1 hd) h
  | some x => exact ⟨x, rfl⟩

/-- `sym` and `nib` are inverse to each other (R101). -/
theorem nibOf_eq_some_iff (x : Byte) (d : Nibble) : nibOf x = some d ↔ symOf d = some x := by
  have key : ∀ (d : Nibble) (n : Fin 256), nibOf (BitVec.ofFin n) = some d ↔ symOf d = some (BitVec.ofFin n) := by
    decide +kernel
  exact key d x.toFin

theorem nibOf_ne_fill {x : Byte} {d : Nibble} (h : nibOf x = some d) : d ≠ fill := by
  intro hd
  rw [nibOf_eq_some_iff, hd] at h
  exact absurd h (by rw [(symOf_eq_none_iff fill).2 rfl]; simp)

/-- The two digits of a byte that holds a pair. -/
theorem pair_digits {n t u : Nat} (ht : t < 16) (h : n = 16 * u + t) : n % 16 = t ∧ n / 16 = u := by omega

/-- The units, the tens and the sign of an offset byte. -/
theorem offset_digits {n t u s : Nat} (ht : t < 8) (hs : s < 2) (h : n = 16 * u + t + 8 * s) :
    n / 16 = u ∧ n % 8 = t ∧ n / 8 % 2 = s := by omega

theorem bcdEnc_error {v : Nat} (h : 99 < v) : bcdEnc v = .error ⟨.invalidInteger, BitVec.ofNat 32 v⟩ := by
  simp [bcdEnc, h]

theorem bcdEnc_ok {v : Nat} (h : v ≤ 99) :
    bcdEnc v = .ok (pack (BitVec.ofNat 4 (v / 10)) (BitVec.ofNat 4 (v % 10))) := by
  simp [bcdEnc, Nat.not_lt.2 h]

/-- The byte of a BCD pair (R79, R104): units in the high nibble, tens in the low one. -/
theorem bcdEnc_toNat {v : Nat} {b : Byte} (h : bcdEnc v = .ok b) : v ≤ 99 ∧ b.toNat = 16 * (v % 10) + v / 10 := by
  by_cases hv : v ≤ 99
  · rw [bcdEnc_ok hv, Except.ok.injEq] at h
    subst h
    refine ⟨hv, ?_⟩
    rw [pack_toNat]
    simp only [BitVec.toNat_ofNat]
    omega
  · rw [bcdEnc_error (by omega)] at h
    cases h

theorem bcdDec_error {b : Byte} (h : 9 < b.toNat % 16 ∨ 9 < b.toNat / 16) :
    bcdDec b = .error ⟨.invalidOctet, b.setWidth 32⟩ := by
  simp only [bcdDec, lo_toNat, hi_toNat, gt_iff_lt]
  rw [if_pos h]

theorem bcdDec_ok {b : Byte} (h0 : b.toNat % 16 ≤ 9) (h1 : b.toNat / 16 ≤ 9) :
    bcdDec b = .ok (10 * (b.toNat % 16) + b.toNat / 16) := by
  simp only [bcdDec, lo_toNat, hi_toNat, gt_iff_lt]
  rw [if_neg (by omega)]

/-- Decoding the pair of `v` gives `v` back (R106). -/
theorem bcdDec_bcdEnc {v : Nat} {b : Byte} (h : bcdEnc v = .ok b) : bcdDec b = .ok v := by
  obtain ⟨hv, hb⟩ := bcdEnc_toNat h
  obtain ⟨h0, h1⟩ := pair_digits (by omega) hb
  rw [bcdDec_ok (by omega) (by omega), h0, h1]
  congr 1
  omega

theorem tzEnc_error {maxQh : Nat} {q : Int} (h : maxQh < q.natAbs) :
    tzEnc maxQh q = .error ⟨.invalidInteger, BitVec.ofNat 32 q.natAbs⟩ := by
  simp [tzEnc, h]

/-- The offset byte (R80, R107). -/
theorem tzEnc_ok {maxQh : Nat} {q : Int} (h : q.natAbs ≤ maxQh) (hm : maxQh ≤ 79) :
    ∃ b, tzEnc maxQh q = .ok b ∧
      b.toNat = 16 * (q.natAbs % 10) + q.natAbs / 10 + (if q < 0 then 8 else 0) := by
  obtain ⟨b, hb⟩ : ∃ b, bcdEnc q.natAbs = .ok b := ⟨_, bcdEnc_ok (by omega)⟩
  have hn := (bcdEnc_toNat hb).2
  refine ⟨if q < 0 then b + 0x08 else b, ?_, ?_⟩
  · simp [tzEnc, Nat.not_lt.2 h, hb, bind, Except.bind, pure, Except.pure]
  · split
    · rw [BitVec.toNat_add, hn]
      exact Nat.mod_eq_of_lt (by rw [show (0x08 : Byte).toNat = 8 from rfl]; omega)
    · omega

theorem maskSign_toNat (b : Byte) : (b &&& 0xF7).toNat = 16 * (b.toNat / 16) + b.toNat % 8 := by
  have key : ∀ n : Fin 256, ((BitVec.ofFin n : Byte) &&& 0xF7).toNat = 16 * (n.val / 16) + n.val % 8 := by decide +kernel
  exact key b.toFin

theorem signBit_eq (b : Byte) : b.getLsbD 3 = decide (b.toNat / 8 % 2 = 1) := by
  have key : ∀ n : Fin 256, (BitVec.ofFin n : Byte).getLsbD 3 = decide (n.val / 8 % 2 = 1) := by decide +kernel
  exact key b.toFin

theorem tzDec_error {b : Byte} (h : 9 < b.toNat / 16) : tzDec b = .error ⟨.invalidOctet, (b &&& 0xF7).setWidth 32⟩ := by
  have hm := pair_digits (by omega) (maskSign_toNat b)
  simp only [tzDec]
  rw [bcdDec_error (Or.inr (by omega))]
  rfl

/-- The quarter-hour count of an offset byte (R108). -/
theorem tzDec_ok {b : Byte} (h : b.toNat / 16 ≤ 9) :
    tzDec b = .ok (if b.toNat / 8 % 2 = 1 then -((10 * (b.toNat % 8) + b.toNat / 16 : Nat) : Int)
      else ((10 * (b.toNat % 8) + b.toNat / 16 : Nat) : Int)) := by
  obtain ⟨h0, h1⟩ := pair_digits (by omega) (maskSign_toNat b)
  simp only [tzDec]
  rw [bcdDec_ok (by omega) (by omega), signBit_eq, h0, h1]
  simp only [bind, Except.bind, pure, Except.pure, decide_eq_true_eq]

/-- Decoding the byte of a count gives the count back (R109). -/
theorem tzDec_tzEnc {maxQh : Nat} {q : Int} {b : Byte} (hm : maxQh ≤ 79) (h : tzEnc maxQh q = .ok b) : tzDec b = .ok q := by
  by_cases hq : q.natAbs ≤ maxQh
  · obtain ⟨b', hb', hn⟩ := tzEnc_ok hq hm
    rw [h, Except.ok.injEq] at hb'
    subst hb'
    by_cases hs : q < 0
    · simp only [hs, if_true] at hn
      obtain ⟨h1, h2, h3⟩ := offset_digits (s := 1) (by omega) (by omega) hn
      rw [tzDec_ok (by omega), if_pos h3, h1, h2, Except.ok.injEq]
      omega
    · simp only [hs, if_false] at hn
      obtain ⟨h1, h2, h3⟩ := offset_digits (s := 0) (by omega) (by omega) hn
      rw [tzDec_ok (by omega), if_neg (by omega), h1, h2, Except.ok.injEq]
      omega
  · rw [tzEnc_error (by omega)] at h
    cases h

end Sys2Proof.Machine
end

