-- ==== Sys2Proof/Laws/Charset.lean ====
section
/-! SUPPORT. The ROM: which parameters are admissible, in the spec's terms, and what the derived encoder finds. -/

namespace Sys2Proof.Machine

theorem romLookup_eq_some_iff (rom : List (Option CodePoint)) (c : Nat) (p : CodePoint) :
    romLookup rom c = some p ↔ rom[c]? = some (some p) := by
  simp [romLookup, Option.join_eq_some_iff]

theorem romLookup_none_of_le {rom : List (Option CodePoint)} {c : Nat} (h : rom.length ≤ c) : romLookup rom c = none := by
  simp [romLookup, List.getElem?_eq_none h]

theorem entryIs_iff (p : Word) (e : Option CodePoint) : entryIs p e = true ↔ ∃ q, e = some q ∧ q.toNat = p.toNat := by
  cases e with
  | none => simp [entryIs]
  | some q => simp [entryIs]

/-- Where no entry is the code point, the encoder has none (R163). -/
theorem firstCode_none (p : Word) (rom : List (Option CodePoint)) : ∀ c,
    (∀ (k : Nat) (q : CodePoint), romLookup rom k = some q → q.toNat ≠ p.toNat) → firstCode p c rom = none := by
  induction rom with
  | nil => intros; rfl
  | cons e rest ih =>
    intro c h
    have he : entryIs p e ≠ true := by
      rw [Ne, entryIs_iff]
      rintro ⟨q, rfl, hq⟩
      exact h 0 q (by simp [romLookup]) hq
    simp only [firstCode, he]
    exact ih (c + 1) (fun k q hk => h (k + 1) q (by simpa [romLookup] using hk))

/-- The encoder finds the lowest code whose entry is the code point (R163). -/
theorem firstCode_some (p : Word) (rom : List (Option CodePoint)) : ∀ (c k : Nat) (q : CodePoint),
    romLookup rom k = some q → q.toNat = p.toNat →
    (∀ (j : Nat) (r : CodePoint), j < k → romLookup rom j = some r → r.toNat ≠ p.toNat) →
    firstCode p c rom = some (c + k) := by
  induction rom with
  | nil => intro c k q h; simp [romLookup] at h
  | cons e rest ih =>
    intro c k q hk hq hmin
    cases k with
    | zero =>
      have he : e = some q := by simpa [romLookup] using hk
      have : entryIs p e = true := (entryIs_iff p e).2 ⟨q, he, hq⟩
      simp [firstCode, this]
    | succ k =>
      have he : entryIs p e ≠ true := by
        rw [Ne, entryIs_iff]
        rintro ⟨r, rfl, hr⟩
        exact hmin 0 r (by omega) (by simp [romLookup]) hr
      simp only [firstCode, he]
      rw [if_neg (by simp), ih (c + 1) k q (by simpa [romLookup] using hk) hq
        (fun j r hj hr => hmin (j + 1) r (by omega) (by simpa [romLookup] using hr))]
      congr 1
      omega

/-- What the encoder found is a code whose entry is the code point. -/
theorem firstCode_sound {p : Word} {rom : List (Option CodePoint)} : ∀ {c k : Nat}, firstCode p c rom = some k →
    c ≤ k ∧ k < c + rom.length ∧ ∃ q, romLookup rom (k - c) = some q ∧ q.toNat = p.toNat := by
  induction rom with
  | nil => intro c k h; simp [firstCode] at h
  | cons e rest ih =>
    intro c k h
    simp only [firstCode] at h
    split at h
    · rename_i he
      cases h
      obtain ⟨q, hq, hp⟩ := (entryIs_iff p e).1 he
      refine ⟨Nat.le_refl _, by simp, q, ?_, hp⟩
      rw [Nat.sub_self, hq]
      rfl
    · obtain ⟨h1, h2, q, hq, hp⟩ := ih h
      refine ⟨by omega, by simp only [List.length_cons]; omega, q, ?_, hp⟩
      have e : k - c = (k - (c + 1)) + 1 := by omega
      rw [e]
      simpa [romLookup] using hq

theorem distinctFrom_iff (ps : List Nat) : ∀ seen, distinctFrom seen ps = true ↔
    ps.Nodup ∧ ∀ p ∈ ps, seen.testBit p = false := by
  induction ps with
  | nil => simp [distinctFrom]
  | cons p rest ih =>
    intro seen
    simp only [distinctFrom, Bool.and_eq_true, Bool.not_eq_true', ih, List.nodup_cons, List.mem_cons, Nat.testBit_or,
      Nat.testBit_two_pow, Bool.or_eq_false_iff, decide_eq_false_iff_not, forall_eq_or_imp]
    constructor
    · rintro ⟨h1, h2, h3⟩
      exact ⟨⟨fun hm => (h3 p hm).2 rfl, h2⟩, h1, fun q hq => (h3 q hq).1⟩
    · rintro ⟨⟨h1, h2⟩, h3, h4⟩
      exact ⟨h3, h2, fun q hq => ⟨h4 q hq, fun e => h1 (e ▸ hq)⟩⟩

theorem mem_romEntries (rom : List (Option CodePoint)) (n : Nat) :
    n ∈ romEntries rom ↔ ∃ c q, romLookup rom c = some q ∧ q.toNat = n := by
  induction rom with
  | nil => simp [romEntries, romLookup]
  | cons e rest ih =>
    have tail : (∃ c q, romLookup rest c = some q ∧ q.toNat = n) → ∃ c q, romLookup (e :: rest) c = some q ∧ q.toNat = n := by
      rintro ⟨c, q, h, hq⟩
      exact ⟨c + 1, q, by simpa [romLookup] using h, hq⟩
    have split : (∃ c q, romLookup (e :: rest) c = some q ∧ q.toNat = n) →
        (∃ q, e = some q ∧ q.toNat = n) ∨ ∃ c q, romLookup rest c = some q ∧ q.toNat = n := by
      rintro ⟨c, q, h, hq⟩
      cases c with
      | zero => exact .inl ⟨q, by simpa [romLookup] using h, hq⟩
      | succ c => exact .inr ⟨c, q, by simpa [romLookup] using h, hq⟩
    cases e with
    | none =>
      rw [romEntries, ih]
      refine ⟨tail, fun h => ?_⟩
      rcases split h with ⟨q, h, -⟩ | h
      · cases h
      · exact h
    | some p =>
      rw [romEntries, List.mem_cons, ih]
      constructor
      · rintro (rfl | h)
        · exact ⟨0, p, by simp [romLookup], rfl⟩
        · exact tail h
      · intro h
        rcases split h with ⟨q, h, hq⟩ | h
        · cases h
          exact .inl hq.symm
        · exact .inr h

/-- The check is injectivity on the defined entries (R162). -/
theorem romEntries_nodup_iff (rom : List (Option CodePoint)) : (romEntries rom).Nodup ↔
    ∀ c c' p, romLookup rom c = some p → romLookup rom c' = some p → c = c' := by
  induction rom with
  | nil => simp [romEntries, romLookup]
  | cons e rest ih =>
    have tail : (∀ c c' p, romLookup (e :: rest) c = some p → romLookup (e :: rest) c' = some p → c = c') →
        ∀ c c' p, romLookup rest c = some p → romLookup rest c' = some p → c = c' := by
      intro h c c' p h1 h2
      have := h (c + 1) (c' + 1) p (by simpa [romLookup] using h1) (by simpa [romLookup] using h2)
      omega
    cases e with
    | none =>
      rw [romEntries, ih]
      refine ⟨fun h c c' p h1 h2 => ?_, tail⟩
      cases c with
      | zero => simp [romLookup] at h1
      | succ c =>
        cases c' with
        | zero => simp [romLookup] at h2
        | succ c' => rw [h c c' p (by simpa [romLookup] using h1) (by simpa [romLookup] using h2)]
    | some a =>
      rw [romEntries, List.nodup_cons, ih, mem_romEntries]
      constructor
      · rintro ⟨hn, h⟩ c c' p h1 h2
        cases c with
        | zero =>
          cases c' with
          | zero => rfl
          | succ c' =>
            have : a = p := by simpa [romLookup] using h1
            subst this
            exact absurd ⟨c', a, by simpa [romLookup] using h2, rfl⟩ hn
        | succ c =>
          cases c' with
          | zero =>
            have : a = p := by simpa [romLookup] using h2
            subst this
            exact absurd ⟨c, a, by simpa [romLookup] using h1, rfl⟩ hn
          | succ c' => rw [h c c' p (by simpa [romLookup] using h1) (by simpa [romLookup] using h2)]
      · intro h
        refine ⟨?_, tail h⟩
        rintro ⟨c, q, hq, ha⟩
        have : q = a := BitVec.eq_of_toNat_eq ha
        subst this
        have := h 0 (c + 1) q (by simp [romLookup]) (by simpa [romLookup] using hq)
        omega

theorem romShape_iff (rom : List (Option CodePoint)) : romShape rom = true ↔
    rom.length = 128 ∧ ∀ c p, romLookup rom c = some p → p.toNat ≤ maxCodePoint := by
  simp only [romShape, Bool.and_eq_true, Nat.beq_eq, List.all_eq_true]
  refine and_congr_right fun _ => ⟨fun h c p hp => ?_, fun h e he => ?_⟩
  · rw [romLookup_eq_some_iff] at hp
    have := h (some p) (List.mem_of_getElem? hp)
    exact Nat.le_of_ble_eq_true this
  · cases e with
    | none => rfl
    | some p =>
      obtain ⟨c, hc⟩ := List.getElem?_of_mem he
      exact Nat.ble_eq_true_of_le (h c p ((romLookup_eq_some_iff rom c p).2 hc))

/-- The parts of admissibility. -/
theorem admissible_iff (p : Params) : admissible p = true ↔
    legalNumbers p = true ∧ romShape p.defDec = true ∧ romShape p.extDec = true ∧ fixedEntries p.defDec = true ∧
      (romEntries p.defDec).Nodup := by
  simp only [admissible, Bool.and_eq_true, distinctFrom_iff, Nat.zero_testBit, implies_true, and_true]
  tauto

theorem legalNumbers_iff (p : Params) : legalNumbers p = true ↔
    p.blockBase % 0x4000 = 0 ∧ p.bufBytes % 4 = 0 ∧ 8 ≤ p.bufBytes ∧ p.bufBytes ≤ 4096 ∧ p.centuryPivot ≤ 100 ∧
      p.tzQhMax ≤ 79 := by
  simp only [legalNumbers, Bool.and_eq_true, Nat.beq_eq, Nat.ble_eq]
  tauto

theorem admissible_numbers {p : Params} (h : admissible p = true) :
    p.blockBase % 0x4000 = 0 ∧ p.bufBytes % 4 = 0 ∧ 8 ≤ p.bufBytes ∧ p.bufBytes ≤ 4096 ∧ p.centuryPivot ≤ 100 ∧
      p.tzQhMax ≤ 79 :=
  (legalNumbers_iff p).1 ((admissible_iff p).1 h).1

/-- The default parameters of R5 with the reference images of R165 are admissible: "The image satisfies rule R161 ... and
rule R162". -/
theorem admissible_defaultParams : admissible defaultParams = true := by decide +kernel

end Sys2Proof.Machine
end

