-- ==== Sys2Proof/Laws/Decode.lean ====
section
/-! SUPPORT. The two fields of a command word as numbers, and what the decoder makes of them. -/

namespace Sys2Proof

theorem opField_toNat (w : Word) : (opField w).toNat = w.toNat % 16 := by simp [opField]

theorem rsvField_toNat (w : Word) : (rsvField w).toNat = w.toNat / 16 := by
  have := w.isLt
  simp only [rsvField, BitVec.extractLsb'_toNat, Nat.shiftRight_eq_div_pow]
  omega

theorem rsvField_eq_zero_iff (w : Word) : rsvField w = 0 ↔ w.toNat / 16 = 0 := by
  rw [← rsvField_toNat]
  exact ⟨fun h => by rw [h]; rfl, fun h => BitVec.eq_of_toNat_eq h⟩

/-- The command map read backwards (R72). -/
theorem instrOfOp_eq_some_iff (op : Nibble) (i : Instr) : instrOfOp op = some i ↔ op = opOf i := by
  cases i <;> revert op <;> decide

/-- An OP value selects no command exactly when it is one of R73's. -/
theorem instrOfOp_eq_none_iff (op : Nibble) : instrOfOp op = none ↔ op.toNat = 0 ∨ 9 ≤ op.toNat := by
  revert op; decide

/-- The decoder by the two fields of the word (R71). -/
theorem decode_ok_iff (w : Word) (i : Instr) : decode w = .ok i ↔ rsvField w = 0 ∧ opField w = opOf i := by
  unfold decode
  by_cases h : rsvField w = 0
  · simp only [h, ne_eq, not_true_eq_false, if_false, true_and]
    rw [← instrOfOp_eq_some_iff]
    cases instrOfOp (opField w) <;> simp
  · rw [if_pos h]
    simp only [reduceCtorEq, false_iff]
    exact fun hc => h hc.1

end Sys2Proof
end

