-- ==== Sys2Proof/Laws/Digit.lean ====
section
/-! SUPPORT. What the digit unit's loops compute: the source bytes they read, the packing loop of DENC and the unpacking
loop of DDEC, each described once. -/

namespace Sys2Proof.Machine

@[simp] theorem srcFrom_length (s : State) (n : Nat) : ∀ i, (srcFrom s i n).length = n := by
  induction n with
  | zero => intro i; rfl
  | succ n ih => intro i; simp [srcFrom, ih]

theorem srcFrom_getElem? (s : State) (n : Nat) : ∀ (i k : Nat), k < n → (srcFrom s i n)[k]? = some (s.srcByte (i + k)) := by
  induction n with
  | zero => intro i k h; omega
  | succ n ih =>
    intro i k h
    cases k with
    | zero => simp [srcFrom]
    | succ k =>
      simp only [srcFrom, List.getElem?_cons_succ]
      rw [ih (i + 1) k (by omega)]
      congr 2
      omega

@[simp] theorem srcBytes_length (s : State) (n : Nat) : (srcBytes s n).length = n := srcFrom_length s n 0

theorem srcBytes_getElem? (s : State) {n k : Nat} (h : k < n) : (srcBytes s n)[k]? = some (s.srcByte k) := by
  have := srcFrom_getElem? s n 0 k h
  rw [Nat.zero_add] at this
  exact this

theorem checkLength_error {buf : Nat} {n : Word} (h : buf < n.toNat) : checkLength buf n = .error ⟨.badLength, n⟩ := by
  simp [checkLength, h]

theorem checkLength_ok {buf : Nat} {n : Word} (h : n.toNat ≤ buf) : checkLength buf n = .ok n.toNat := by
  simp [checkLength, Nat.not_lt.2 h]

/-- A string of symbols has the nibbles of its symbols. -/
theorem digitNibbles_ok (bs : List Byte) : ∀ (d : Nat → Nibble), (∀ i x, bs[i]? = some x → nibOf x = some (d i)) →
    ∃ ds, digitNibbles bs = .ok ds ∧ ds.length = bs.length ∧ ∀ i, i < bs.length → ds[i]? = some (d i) := by
  induction bs with
  | nil => intro d _; exact ⟨[], rfl, rfl, by simp⟩
  | cons x rest ih =>
    intro d h
    obtain ⟨ds, h1, h2, h3⟩ := ih (fun i => d (i + 1)) (fun i y hy => h (i + 1) y (by simpa using hy))
    refine ⟨d 0 :: ds, ?_, by simp [h2], ?_⟩
    · simp [digitNibbles, h 0 x (by simp), h1]
    · intro i hi
      cases i with
      | zero => simp
      | succ i => simpa using h3 i (by simpa using hi)

/-- The lowest index whose byte is no symbol is the one reported. -/
theorem digitNibbles_error (bs : List Byte) : ∀ (i : Nat) (x : Byte), bs[i]? = some x → nibOf x = none →
    (∀ j y, j < i → bs[j]? = some y → nibOf y ≠ none) → digitNibbles bs = .error ⟨.invalidDigit, x.setWidth 32⟩ := by
  induction bs with
  | nil => intro i x h; simp at h
  | cons y rest ih =>
    intro i x h hx hj
    cases i with
    | zero =>
      simp only [List.getElem?_cons_zero, Option.some.injEq] at h
      subst h
      simp [digitNibbles, hx]
    | succ i =>
      obtain ⟨d, hd⟩ := Option.ne_none_iff_exists'.1 (hj 0 y (by omega) (by simp))
      have := ih i x (by simpa using h) hx (fun j z h1 h2 => hj (j + 1) z (by omega) (by simpa using h2))
      simp [digitNibbles, hd, this]

theorem digitNibbles_length {bs : List Byte} : ∀ {ds : List Nibble}, digitNibbles bs = .ok ds → ds.length = bs.length := by
  induction bs with
  | nil => intro ds h; cases h; rfl
  | cons x rest ih =>
    intro ds h
    simp only [digitNibbles] at h
    split at h
    · cases h
    · split at h
      · cases h
      · rename_i h1
        cases h
        simp [ih h1]

theorem digitNibbles_errorKind {bs : List Byte} {e : CommandError} (h : digitNibbles bs = .error e) : e.kind = .invalidDigit := by
  induction bs with
  | nil => cases h
  | cons x rest ih =>
    simp only [digitNibbles] at h
    split at h
    · cases h; rfl
    · split at h
      · rename_i h1; cases h; exact ih h1
      · cases h

/-- The packed length is `ceil(n / 2)`. -/
theorem packDigits_length (ds : List Nibble) : (packDigits ds).length = (ds.length + 1) / 2 := by
  fun_induction packDigits ds with
  | case1 => rfl
  | case2 d => simp
  | case3 d0 d1 rest ih => simp only [List.length_cons, ih]; omega

/-- A full pair. -/
theorem packDigits_pair (ds : List Nibble) : ∀ (k : Nat) (d0 d1 : Nibble), ds[2 * k]? = some d0 → ds[2 * k + 1]? = some d1 →
    (packDigits ds)[k]? = some (pack d0 d1) := by
  fun_induction packDigits ds with
  | case1 => intro k d0 d1 h; simp at h
  | case2 d => intro k d0 d1 _ h; simp at h
  | case3 e0 e1 rest ih =>
    intro k d0 d1 h0 h1
    cases k with
    | zero => simp_all
    | succ k =>
      have e : 2 * (k + 1) = 2 * k + 1 + 1 := by omega
      rw [e] at h0 h1
      simp only [List.getElem?_cons_succ] at h0 h1 ⊢
      exact ih k d0 d1 h0 h1

/-- The last digit of a string of odd length is packed with the fill value. -/
theorem packDigits_last (ds : List Nibble) : ∀ (k : Nat) (d0 : Nibble), ds.length = 2 * k + 1 → ds[2 * k]? = some d0 →
    (packDigits ds)[k]? = some (pack d0 fill) := by
  fun_induction packDigits ds with
  | case1 => intro k d0 h; simp at h
  | case2 d =>
    intro k d0 h h0
    have : k = 0 := by simpa using h
    subst this
    simp_all
  | case3 e0 e1 rest ih =>
    intro k d0 h h0
    cases k with
    | zero => simp at h
    | succ k =>
      have e : 2 * (k + 1) = 2 * k + 1 + 1 := by omega
      rw [e] at h0
      simp only [List.getElem?_cons_succ, List.length_cons] at h0 h ⊢
      exact ih k d0 (by omega) h0

/-- Nibble `j` of a packed buffer, low nibbles at even `j`. -/
def nibbleOf (bs : List Byte) (j : Nat) : Nibble :=
  if j % 2 = 0 then lo (bs.getD (j / 2) 0) else hi (bs.getD (j / 2) 0)

/-- The digits of a packed buffer: all its nibbles, less a terminal fill. -/
def digitsIn : List Byte → Nat
  | [] => 0
  | [b] => if hi b = fill then 1 else 2
  | _ :: c :: rest => digitsIn (c :: rest) + 2

theorem nibbleOf_zero (b : Byte) (rest : List Byte) : nibbleOf (b :: rest) 0 = lo b := by simp [nibbleOf]

theorem nibbleOf_one (b : Byte) (rest : List Byte) : nibbleOf (b :: rest) 1 = hi b := by simp [nibbleOf]

theorem nibbleOf_succ (b : Byte) (rest : List Byte) (j : Nat) : nibbleOf (b :: rest) (j + 2) = nibbleOf rest j := by
  have h1 : (j + 2) % 2 = j % 2 := by omega
  have h2 : (j + 2) / 2 = j / 2 + 1 := by omega
  simp [nibbleOf, h2]

theorem digitsIn_cons {b : Byte} {rest : List Byte} (h : rest ≠ []) : digitsIn (b :: rest) = digitsIn rest + 2 := by
  cases rest with
  | nil => exact absurd rfl h
  | cons c rest => rfl

theorem digitsIn_singleton (b : Byte) : digitsIn [b] = if hi b = fill then 1 else 2 := rfl

theorem srcFrom_snoc (s : State) (n : Nat) : ∀ i, srcFrom s i (n + 1) = srcFrom s i n ++ [s.srcByte (i + n)] := by
  induction n with
  | zero => intro i; simp [srcFrom]
  | succ n ih =>
    intro i
    rw [srcFrom, ih (i + 1), srcFrom, List.cons_append]
    congr 3
    congr 1
    omega

theorem digitsIn_snoc (bs : List Byte) (b : Byte) :
    digitsIn (bs ++ [b]) = 2 * bs.length + (if hi b = fill then 1 else 2) := by
  induction bs with
  | nil => simp [digitsIn]
  | cons c rest ih =>
    rw [List.cons_append, digitsIn_cons (by simp), ih]
    simp only [List.length_cons]
    omega

/-- The nibbles of the bytes DDEC reads are those of the source buffer. -/
theorem nibbleOf_srcBytes {s : State} {n j : Nat} (h : j < 2 * n) : nibbleOf (srcBytes s n) j = srcNibble s j := by
  simp only [nibbleOf, srcNibble, List.getD_eq_getElem?_getD, srcBytes_getElem? s (show j / 2 < n by omega), Option.getD_some]

/-- The digits of the bytes DDEC reads are the decodable length. -/
theorem digitsIn_srcBytes (s : State) : digitsIn (srcBytes s s.srcLen.toNat) = decodableLength s := by
  unfold decodableLength
  generalize s.srcLen.toNat = n
  cases n with
  | zero => simp [srcBytes, srcFrom, digitsIn]
  | succ n =>
    rw [srcBytes, srcFrom_snoc, digitsIn_snoc, srcFrom_length]
    simp only [Nat.zero_add, Nat.add_sub_cancel, Nat.zero_lt_succ, true_and]
    split <;> omega

theorem decodableLength_le (s : State) : decodableLength s ≤ 2 * s.srcLen.toNat := by
  unfold decodableLength
  split <;> omega

/-- A source byte is the pair of its two nibbles. -/
theorem srcByte_eq_pack (s : State) (k : Nat) : s.srcByte k = pack (srcNibble s (2 * k)) (srcNibble s (2 * k + 1)) := by
  have h1 : 2 * k % 2 = 0 := by omega
  have h2 : (2 * k + 1) % 2 ≠ 0 := by omega
  have h3 : 2 * k / 2 = k := by omega
  have h4 : (2 * k + 1) / 2 = k := by omega
  simp only [srcNibble, h1, h2, h3, h4, if_true, if_false, pack_lo_hi]

/-- The loop of DDEC where it meets no fill out of place: `min room (digitsIn bs)` digits (R122, R123). -/
theorem unpackDigits_ok (bs : List Byte) : ∀ (room : Nat), (∀ j, j < min room (digitsIn bs) → nibbleOf bs j ≠ fill) →
    ∃ ds, unpackDigits bs room = .ok (ds, (min room (digitsIn bs) + 1) / 2) ∧ ds.length = min room (digitsIn bs) ∧
      ∀ j, j < min room (digitsIn bs) → ds[j]? = symOf (nibbleOf bs j) := by
  induction bs with
  | nil => intro room _; exact ⟨[], by simp [unpackDigits, digitsIn], by simp [digitsIn], by simp [digitsIn]⟩
  | cons b rest ih =>
    intro room h
    match room with
    | 0 => exact ⟨[], by simp [unpackDigits], by simp, by simp⟩
    | 1 =>
      have hpos : 1 ≤ digitsIn (b :: rest) := by
        cases rest with
        | nil => rw [digitsIn_singleton]; split <;> omega
        | cons c r => rw [digitsIn_cons (by simp)]; omega
      have e : min 1 (digitsIn (b :: rest)) = 1 := by omega
      rw [e] at h ⊢
      have h0 := h 0 (by omega)
      rw [nibbleOf_zero] at h0
      obtain ⟨x, hx⟩ := symOf_isSome h0
      refine ⟨[x], by simp [unpackDigits, hx], rfl, ?_⟩
      intro j hj
      have : j = 0 := by omega
      subst this
      simp [nibbleOf_zero, hx]
    | room + 2 =>
      by_cases hr : rest = []
      · subst hr
        rw [digitsIn_singleton] at h ⊢
        by_cases hf : hi b = fill
        · simp only [hf, if_true] at h ⊢
          have e : min (room + 2) 1 = 1 := by omega
          rw [e] at h ⊢
          have h0 := h 0 (by omega)
          rw [nibbleOf_zero] at h0
          obtain ⟨x, hx⟩ := symOf_isSome h0
          refine ⟨[x], by simp [unpackDigits, hx, (symOf_eq_none_iff _).2 hf], rfl, ?_⟩
          intro j hj
          have : j = 0 := by omega
          subst this
          simp [nibbleOf_zero, hx]
        · simp only [hf, if_false] at h ⊢
          have e : min (room + 2) 2 = 2 := by omega
          rw [e] at h ⊢
          have h0 := h 0 (by omega)
          rw [nibbleOf_zero] at h0
          obtain ⟨x, hx⟩ := symOf_isSome h0
          obtain ⟨y, hy⟩ := symOf_isSome hf
          refine ⟨[x, y], by simp [unpackDigits, hx, hy], rfl, ?_⟩
          intro j hj
          have : j = 0 ∨ j = 1 := by omega
          rcases this with rfl | rfl
          · simp [nibbleOf_zero, hx]
          · simp [nibbleOf_one, hy]
      · rw [digitsIn_cons hr] at h ⊢
        have e : min (room + 2) (digitsIn rest + 2) = min room (digitsIn rest) + 2 := by omega
        rw [e] at h ⊢
        have h0 := h 0 (by omega)
        have h1 := h 1 (by omega)
        rw [nibbleOf_zero] at h0
        rw [nibbleOf_one] at h1
        obtain ⟨x, hx⟩ := symOf_isSome h0
        obtain ⟨y, hy⟩ := symOf_isSome h1
        obtain ⟨ds, hu, hl, hd⟩ := ih room (fun j hj => by rw [← nibbleOf_succ b]; exact h (j + 2) (by omega))
        refine ⟨x :: y :: ds, ?_, by simp [hl], ?_⟩
        · simp only [unpackDigits, hx, hy, hu]
          congr 2
          omega
        · intro j hj
          match j with
          | 0 => simp [nibbleOf_zero, hx]
          | 1 => simp [nibbleOf_one, hy]
          | j + 2 => simpa [nibbleOf_succ] using hd j (by omega)

/-- The loop of DDEC where it meets a fill out of place: MISSING_FILL for the byte that holds the first (R122). -/
theorem unpackDigits_error (bs : List Byte) : ∀ (room j : Nat), j < min room (digitsIn bs) → nibbleOf bs j = fill →
    (∀ i, i < j → nibbleOf bs i ≠ fill) → unpackDigits bs room = .error (bs.getD (j / 2) 0) := by
  induction bs with
  | nil => intro room j h; simp [digitsIn] at h
  | cons b rest ih =>
    intro room j hj hf hb
    match room, j with
    | 0, _ => omega
    | room + 1, 0 =>
      rw [nibbleOf_zero] at hf
      simp [unpackDigits, (symOf_eq_none_iff _).2 hf]
    | 1, j + 1 => omega
    | room + 2, 1 =>
      have h0 := hb 0 (by omega)
      rw [nibbleOf_zero] at h0
      rw [nibbleOf_one] at hf
      obtain ⟨x, hx⟩ := symOf_isSome h0
      cases rest with
      | nil => rw [digitsIn_singleton, if_pos hf] at hj; omega
      | cons c r => simp [unpackDigits, hx, (symOf_eq_none_iff _).2 hf]
    | room + 2, j + 2 =>
      have h0 := hb 0 (by omega)
      have h1 := hb 1 (by omega)
      rw [nibbleOf_zero] at h0
      rw [nibbleOf_one] at h1
      obtain ⟨x, hx⟩ := symOf_isSome h0
      obtain ⟨y, hy⟩ := symOf_isSome h1
      have hr : rest ≠ [] := by
        intro hr
        subst hr
        rw [digitsIn_singleton] at hj
        split at hj <;> omega
      rw [digitsIn_cons hr] at hj
      rw [nibbleOf_succ] at hf
      have := ih room j (by omega) hf (fun i hi => by rw [← nibbleOf_succ b]; exact hb (i + 2) (by omega))
      have e : (j + 2) / 2 = j / 2 + 1 := by omega
      simp [unpackDigits, hx, hy, this, e]

/-- The loop never produces more digits than it has room for, and counts half of them, rounded up (R124). -/
theorem unpackDigits_bounds (bs : List Byte) : ∀ (room : Nat) (ds : List Byte) (c : Nat), unpackDigits bs room = .ok (ds, c) →
    ds.length ≤ room ∧ c = (ds.length + 1) / 2 ∧ c ≤ bs.length := by
  induction bs with
  | nil => intro room ds c h; cases h; simp
  | cons b rest ih =>
    intro room ds c h
    match room with
    | 0 => cases h; simp
    | room + 1 =>
      simp only [unpackDigits] at h
      split at h
      · cases h
      · split at h
        · cases h; simp
        · split at h
          · split at h
            · cases h; simp
            · cases h
          · split at h
            · cases h
            · rename_i room' _ _ _ _ _ _ hu
              cases h
              have := ih _ _ _ hu
              simp only [List.length_cons]
              omega

end Sys2Proof.Machine
end

