-- ==== Sys2Proof/Laws/State.lean ====
section
/-! SUPPORT. One lemma per field of State for each named update of it, and the buffer bytes under each update. -/

namespace Sys2Proof.Machine

/-! State.complete -/

@[simp] theorem complete_params (m c : Nat) (s : State) : (State.complete m c s).params = s.params := rfl
@[simp] theorem complete_status (m c : Nat) (s : State) : (State.complete m c s).status = ⟨true, .ok⟩ := rfl
@[simp] theorem complete_errVal (m c : Nat) (s : State) : (State.complete m c s).errVal = 0 := rfl
@[simp] theorem complete_srcLen (m c : Nat) (s : State) : (State.complete m c s).srcLen = s.srcLen := rfl
@[simp] theorem complete_dstLim (m c : Nat) (s : State) : (State.complete m c s).dstLim = s.dstLim := rfl
@[simp] theorem complete_outLen (m c : Nat) (s : State) : (State.complete m c s).outLen = BitVec.ofNat 32 m := rfl
@[simp] theorem complete_consumed (m c : Nat) (s : State) : (State.complete m c s).consumed = BitVec.ofNat 32 c := rfl
@[simp] theorem complete_ts (m c : Nat) (s : State) : (State.complete m c s).ts = s.ts := rfl
@[simp] theorem complete_csIn (m c : Nat) (s : State) : (State.complete m c s).csIn = s.csIn := rfl
@[simp] theorem complete_csOut (m c : Nat) (s : State) : (State.complete m c s).csOut = s.csOut := rfl
@[simp] theorem complete_srcBuf (m c : Nat) (s : State) : (State.complete m c s).srcBuf = s.srcBuf := rfl
@[simp] theorem complete_dstBuf (m c : Nat) (s : State) : (State.complete m c s).dstBuf = s.dstBuf := rfl
@[simp] theorem complete_draws (m c : Nat) (s : State) : (State.complete m c s).draws = s.draws := rfl
@[simp] theorem complete_pending (m c : Nat) (s : State) : (State.complete m c s).pending = s.pending := rfl
@[simp] theorem complete_readData (m c : Nat) (s : State) : (State.complete m c s).readData = s.readData := rfl
@[simp] theorem complete_srcByte (m c : Nat) (s : State) (i : Nat) : (State.complete m c s).srcByte i = s.srcByte i := rfl
@[simp] theorem complete_dstByte (m c : Nat) (s : State) (i : Nat) : (State.complete m c s).dstByte i = s.dstByte i := rfl

/-! State.raise -/

@[simp] theorem raise_params (e : CommandError) (s : State) : (State.raise e s).params = s.params := rfl
@[simp] theorem raise_status (e : CommandError) (s : State) : (State.raise e s).status = ⟨true, e.kind⟩ := rfl
@[simp] theorem raise_errVal (e : CommandError) (s : State) : (State.raise e s).errVal = e.value := rfl
@[simp] theorem raise_srcLen (e : CommandError) (s : State) : (State.raise e s).srcLen = s.srcLen := rfl
@[simp] theorem raise_dstLim (e : CommandError) (s : State) : (State.raise e s).dstLim = s.dstLim := rfl
@[simp] theorem raise_outLen (e : CommandError) (s : State) : (State.raise e s).outLen = 0 := rfl
@[simp] theorem raise_consumed (e : CommandError) (s : State) : (State.raise e s).consumed = 0 := rfl
@[simp] theorem raise_ts (e : CommandError) (s : State) : (State.raise e s).ts = s.ts := rfl
@[simp] theorem raise_csIn (e : CommandError) (s : State) : (State.raise e s).csIn = s.csIn := rfl
@[simp] theorem raise_csOut (e : CommandError) (s : State) : (State.raise e s).csOut = s.csOut := rfl
@[simp] theorem raise_srcBuf (e : CommandError) (s : State) : (State.raise e s).srcBuf = s.srcBuf := rfl
@[simp] theorem raise_dstBuf (e : CommandError) (s : State) : (State.raise e s).dstBuf = s.dstBuf := rfl
@[simp] theorem raise_draws (e : CommandError) (s : State) : (State.raise e s).draws = s.draws := rfl
@[simp] theorem raise_pending (e : CommandError) (s : State) : (State.raise e s).pending = s.pending := rfl
@[simp] theorem raise_readData (e : CommandError) (s : State) : (State.raise e s).readData = s.readData := rfl
@[simp] theorem raise_srcByte (e : CommandError) (s : State) (i : Nat) : (State.raise e s).srcByte i = s.srcByte i := rfl
@[simp] theorem raise_dstByte (e : CommandError) (s : State) (i : Nat) : (State.raise e s).dstByte i = s.dstByte i := rfl

/-! State.storeDst -/

@[simp] theorem storeDst_params (bs : List Byte) (s : State) : (State.storeDst bs s).params = s.params := rfl
@[simp] theorem storeDst_status (bs : List Byte) (s : State) : (State.storeDst bs s).status = s.status := rfl
@[simp] theorem storeDst_errVal (bs : List Byte) (s : State) : (State.storeDst bs s).errVal = s.errVal := rfl
@[simp] theorem storeDst_srcLen (bs : List Byte) (s : State) : (State.storeDst bs s).srcLen = s.srcLen := rfl
@[simp] theorem storeDst_dstLim (bs : List Byte) (s : State) : (State.storeDst bs s).dstLim = s.dstLim := rfl
@[simp] theorem storeDst_outLen (bs : List Byte) (s : State) : (State.storeDst bs s).outLen = s.outLen := rfl
@[simp] theorem storeDst_consumed (bs : List Byte) (s : State) : (State.storeDst bs s).consumed = s.consumed := rfl
@[simp] theorem storeDst_ts (bs : List Byte) (s : State) : (State.storeDst bs s).ts = s.ts := rfl
@[simp] theorem storeDst_csIn (bs : List Byte) (s : State) : (State.storeDst bs s).csIn = s.csIn := rfl
@[simp] theorem storeDst_csOut (bs : List Byte) (s : State) : (State.storeDst bs s).csOut = s.csOut := rfl
@[simp] theorem storeDst_srcBuf (bs : List Byte) (s : State) : (State.storeDst bs s).srcBuf = s.srcBuf := rfl
@[simp] theorem storeDst_dstBuf (bs : List Byte) (s : State) : (State.storeDst bs s).dstBuf = Memory.writeAll s.dstBuf 0 bs := rfl
@[simp] theorem storeDst_draws (bs : List Byte) (s : State) : (State.storeDst bs s).draws = s.draws := rfl
@[simp] theorem storeDst_pending (bs : List Byte) (s : State) : (State.storeDst bs s).pending = s.pending := rfl
@[simp] theorem storeDst_readData (bs : List Byte) (s : State) : (State.storeDst bs s).readData = s.readData := rfl
@[simp] theorem storeDst_srcByte (bs : List Byte) (s : State) (i : Nat) : (State.storeDst bs s).srcByte i = s.srcByte i := rfl

/-! State.setTs -/

@[simp] theorem setTs_params (r : TsRegs) (s : State) : (State.setTs r s).params = s.params := rfl
@[simp] theorem setTs_status (r : TsRegs) (s : State) : (State.setTs r s).status = s.status := rfl
@[simp] theorem setTs_errVal (r : TsRegs) (s : State) : (State.setTs r s).errVal = s.errVal := rfl
@[simp] theorem setTs_srcLen (r : TsRegs) (s : State) : (State.setTs r s).srcLen = s.srcLen := rfl
@[simp] theorem setTs_dstLim (r : TsRegs) (s : State) : (State.setTs r s).dstLim = s.dstLim := rfl
@[simp] theorem setTs_outLen (r : TsRegs) (s : State) : (State.setTs r s).outLen = s.outLen := rfl
@[simp] theorem setTs_consumed (r : TsRegs) (s : State) : (State.setTs r s).consumed = s.consumed := rfl
@[simp] theorem setTs_ts (r : TsRegs) (s : State) : (State.setTs r s).ts = r := rfl
@[simp] theorem setTs_csIn (r : TsRegs) (s : State) : (State.setTs r s).csIn = s.csIn := rfl
@[simp] theorem setTs_csOut (r : TsRegs) (s : State) : (State.setTs r s).csOut = s.csOut := rfl
@[simp] theorem setTs_srcBuf (r : TsRegs) (s : State) : (State.setTs r s).srcBuf = s.srcBuf := rfl
@[simp] theorem setTs_dstBuf (r : TsRegs) (s : State) : (State.setTs r s).dstBuf = s.dstBuf := rfl
@[simp] theorem setTs_draws (r : TsRegs) (s : State) : (State.setTs r s).draws = s.draws := rfl
@[simp] theorem setTs_pending (r : TsRegs) (s : State) : (State.setTs r s).pending = s.pending := rfl
@[simp] theorem setTs_readData (r : TsRegs) (s : State) : (State.setTs r s).readData = s.readData := rfl
@[simp] theorem setTs_srcByte (r : TsRegs) (s : State) (i : Nat) : (State.setTs r s).srcByte i = s.srcByte i := rfl
@[simp] theorem setTs_dstByte (r : TsRegs) (s : State) (i : Nat) : (State.setTs r s).dstByte i = s.dstByte i := rfl

/-! State.setCsOut -/

@[simp] theorem setCsOut_params (p : CodePoint) (s : State) : (State.setCsOut p s).params = s.params := rfl
@[simp] theorem setCsOut_status (p : CodePoint) (s : State) : (State.setCsOut p s).status = s.status := rfl
@[simp] theorem setCsOut_errVal (p : CodePoint) (s : State) : (State.setCsOut p s).errVal = s.errVal := rfl
@[simp] theorem setCsOut_srcLen (p : CodePoint) (s : State) : (State.setCsOut p s).srcLen = s.srcLen := rfl
@[simp] theorem setCsOut_dstLim (p : CodePoint) (s : State) : (State.setCsOut p s).dstLim = s.dstLim := rfl
@[simp] theorem setCsOut_outLen (p : CodePoint) (s : State) : (State.setCsOut p s).outLen = s.outLen := rfl
@[simp] theorem setCsOut_consumed (p : CodePoint) (s : State) : (State.setCsOut p s).consumed = s.consumed := rfl
@[simp] theorem setCsOut_ts (p : CodePoint) (s : State) : (State.setCsOut p s).ts = s.ts := rfl
@[simp] theorem setCsOut_csIn (p : CodePoint) (s : State) : (State.setCsOut p s).csIn = s.csIn := rfl
@[simp] theorem setCsOut_csOut (p : CodePoint) (s : State) : (State.setCsOut p s).csOut = p := rfl
@[simp] theorem setCsOut_srcBuf (p : CodePoint) (s : State) : (State.setCsOut p s).srcBuf = s.srcBuf := rfl
@[simp] theorem setCsOut_dstBuf (p : CodePoint) (s : State) : (State.setCsOut p s).dstBuf = s.dstBuf := rfl
@[simp] theorem setCsOut_draws (p : CodePoint) (s : State) : (State.setCsOut p s).draws = s.draws := rfl
@[simp] theorem setCsOut_pending (p : CodePoint) (s : State) : (State.setCsOut p s).pending = s.pending := rfl
@[simp] theorem setCsOut_readData (p : CodePoint) (s : State) : (State.setCsOut p s).readData = s.readData := rfl
@[simp] theorem setCsOut_srcByte (p : CodePoint) (s : State) (i : Nat) : (State.setCsOut p s).srcByte i = s.srcByte i := rfl
@[simp] theorem setCsOut_dstByte (p : CodePoint) (s : State) (i : Nat) : (State.setCsOut p s).dstByte i = s.dstByte i := rfl

/-! State.updateTs -/

@[simp] theorem updateTs_params (f : TsRegs → TsRegs) (s : State) : (State.updateTs f s).params = s.params := rfl
@[simp] theorem updateTs_status (f : TsRegs → TsRegs) (s : State) : (State.updateTs f s).status = s.status := rfl
@[simp] theorem updateTs_errVal (f : TsRegs → TsRegs) (s : State) : (State.updateTs f s).errVal = s.errVal := rfl
@[simp] theorem updateTs_srcLen (f : TsRegs → TsRegs) (s : State) : (State.updateTs f s).srcLen = s.srcLen := rfl
@[simp] theorem updateTs_dstLim (f : TsRegs → TsRegs) (s : State) : (State.updateTs f s).dstLim = s.dstLim := rfl
@[simp] theorem updateTs_outLen (f : TsRegs → TsRegs) (s : State) : (State.updateTs f s).outLen = s.outLen := rfl
@[simp] theorem updateTs_consumed (f : TsRegs → TsRegs) (s : State) : (State.updateTs f s).consumed = s.consumed := rfl
@[simp] theorem updateTs_ts (f : TsRegs → TsRegs) (s : State) : (State.updateTs f s).ts = f s.ts := rfl
@[simp] theorem updateTs_csIn (f : TsRegs → TsRegs) (s : State) : (State.updateTs f s).csIn = s.csIn := rfl
@[simp] theorem updateTs_csOut (f : TsRegs → TsRegs) (s : State) : (State.updateTs f s).csOut = s.csOut := rfl
@[simp] theorem updateTs_srcBuf (f : TsRegs → TsRegs) (s : State) : (State.updateTs f s).srcBuf = s.srcBuf := rfl
@[simp] theorem updateTs_dstBuf (f : TsRegs → TsRegs) (s : State) : (State.updateTs f s).dstBuf = s.dstBuf := rfl
@[simp] theorem updateTs_draws (f : TsRegs → TsRegs) (s : State) : (State.updateTs f s).draws = s.draws := rfl
@[simp] theorem updateTs_pending (f : TsRegs → TsRegs) (s : State) : (State.updateTs f s).pending = s.pending := rfl
@[simp] theorem updateTs_readData (f : TsRegs → TsRegs) (s : State) : (State.updateTs f s).readData = s.readData := rfl
@[simp] theorem updateTs_srcByte (f : TsRegs → TsRegs) (s : State) (i : Nat) : (State.updateTs f s).srcByte i = s.srcByte i := rfl
@[simp] theorem updateTs_dstByte (f : TsRegs → TsRegs) (s : State) (i : Nat) : (State.updateTs f s).dstByte i = s.dstByte i := rfl

/-! acceptEvent -/

@[simp] theorem acceptEvent_params (rest : List HostEvent) (s : State) : (acceptEvent rest s).params = s.params := rfl
@[simp] theorem acceptEvent_status (rest : List HostEvent) (s : State) : (acceptEvent rest s).status = s.status := rfl
@[simp] theorem acceptEvent_errVal (rest : List HostEvent) (s : State) : (acceptEvent rest s).errVal = s.errVal := rfl
@[simp] theorem acceptEvent_srcLen (rest : List HostEvent) (s : State) : (acceptEvent rest s).srcLen = s.srcLen := rfl
@[simp] theorem acceptEvent_dstLim (rest : List HostEvent) (s : State) : (acceptEvent rest s).dstLim = s.dstLim := rfl
@[simp] theorem acceptEvent_outLen (rest : List HostEvent) (s : State) : (acceptEvent rest s).outLen = s.outLen := rfl
@[simp] theorem acceptEvent_consumed (rest : List HostEvent) (s : State) : (acceptEvent rest s).consumed = s.consumed := rfl
@[simp] theorem acceptEvent_ts (rest : List HostEvent) (s : State) : (acceptEvent rest s).ts = s.ts := rfl
@[simp] theorem acceptEvent_csIn (rest : List HostEvent) (s : State) : (acceptEvent rest s).csIn = s.csIn := rfl
@[simp] theorem acceptEvent_csOut (rest : List HostEvent) (s : State) : (acceptEvent rest s).csOut = s.csOut := rfl
@[simp] theorem acceptEvent_srcBuf (rest : List HostEvent) (s : State) : (acceptEvent rest s).srcBuf = s.srcBuf := rfl
@[simp] theorem acceptEvent_dstBuf (rest : List HostEvent) (s : State) : (acceptEvent rest s).dstBuf = s.dstBuf := rfl
@[simp] theorem acceptEvent_draws (rest : List HostEvent) (s : State) : (acceptEvent rest s).draws = s.draws := rfl
@[simp] theorem acceptEvent_pending (rest : List HostEvent) (s : State) : (acceptEvent rest s).pending = rest := rfl
@[simp] theorem acceptEvent_readData (rest : List HostEvent) (s : State) : (acceptEvent rest s).readData = none := rfl
@[simp] theorem acceptEvent_srcByte (rest : List HostEvent) (s : State) (i : Nat) : (acceptEvent rest s).srcByte i = s.srcByte i := rfl
@[simp] theorem acceptEvent_dstByte (rest : List HostEvent) (s : State) (i : Nat) : (acceptEvent rest s).dstByte i = s.dstByte i := rfl

/-! applyReset -/

@[simp] theorem applyReset_params (s : State) : (applyReset s).params = s.params := rfl
@[simp] theorem applyReset_status (s : State) : (applyReset s).status = ⟨false, .ok⟩ := rfl
@[simp] theorem applyReset_errVal (s : State) : (applyReset s).errVal = 0 := rfl
@[simp] theorem applyReset_srcLen (s : State) : (applyReset s).srcLen = 0 := rfl
@[simp] theorem applyReset_dstLim (s : State) : (applyReset s).dstLim = 0 := rfl
@[simp] theorem applyReset_outLen (s : State) : (applyReset s).outLen = 0 := rfl
@[simp] theorem applyReset_consumed (s : State) : (applyReset s).consumed = 0 := rfl
@[simp] theorem applyReset_ts (s : State) : (applyReset s).ts = TsRegs.zero := rfl
@[simp] theorem applyReset_csIn (s : State) : (applyReset s).csIn = 0 := rfl
@[simp] theorem applyReset_csOut (s : State) : (applyReset s).csOut = 0 := rfl
@[simp] theorem applyReset_srcBuf (s : State) : (applyReset s).srcBuf = [] := rfl
@[simp] theorem applyReset_dstBuf (s : State) : (applyReset s).dstBuf = [] := rfl
@[simp] theorem applyReset_draws (s : State) : (applyReset s).draws = s.draws + 1 := rfl
@[simp] theorem applyReset_pending (s : State) : (applyReset s).pending = s.pending := rfl
@[simp] theorem applyReset_readData (s : State) : (applyReset s).readData = none := rfl

/-! State.resetWith -/

@[simp] theorem resetWith_params (p : Params) (d : Nat) : (State.resetWith p d).params = p := rfl
@[simp] theorem resetWith_status (p : Params) (d : Nat) : (State.resetWith p d).status = ⟨false, .ok⟩ := rfl
@[simp] theorem resetWith_errVal (p : Params) (d : Nat) : (State.resetWith p d).errVal = 0 := rfl
@[simp] theorem resetWith_srcLen (p : Params) (d : Nat) : (State.resetWith p d).srcLen = 0 := rfl
@[simp] theorem resetWith_dstLim (p : Params) (d : Nat) : (State.resetWith p d).dstLim = 0 := rfl
@[simp] theorem resetWith_outLen (p : Params) (d : Nat) : (State.resetWith p d).outLen = 0 := rfl
@[simp] theorem resetWith_consumed (p : Params) (d : Nat) : (State.resetWith p d).consumed = 0 := rfl
@[simp] theorem resetWith_ts (p : Params) (d : Nat) : (State.resetWith p d).ts = TsRegs.zero := rfl
@[simp] theorem resetWith_csIn (p : Params) (d : Nat) : (State.resetWith p d).csIn = 0 := rfl
@[simp] theorem resetWith_csOut (p : Params) (d : Nat) : (State.resetWith p d).csOut = 0 := rfl
@[simp] theorem resetWith_srcBuf (p : Params) (d : Nat) : (State.resetWith p d).srcBuf = [] := rfl
@[simp] theorem resetWith_dstBuf (p : Params) (d : Nat) : (State.resetWith p d).dstBuf = [] := rfl
@[simp] theorem resetWith_draws (p : Params) (d : Nat) : (State.resetWith p d).draws = d := rfl
@[simp] theorem resetWith_pending (p : Params) (d : Nat) : (State.resetWith p d).pending = [] := rfl
@[simp] theorem resetWith_readData (p : Params) (d : Nat) : (State.resetWith p d).readData = none := rfl

/-! withFetchWord -/

@[simp] theorem withFetchWord_pending (s : State) (nbits w : Nat) :
    (s.withFetchWord nbits w).pending = .access (.write 4 s.params.blockBase (tableWord nbits w)) :: s.pending := rfl
@[simp] theorem withFetchWord_params (s : State) (nbits w : Nat) : (s.withFetchWord nbits w).params = s.params := rfl

/-- Taking an event off the list undoes putting a CMD write on it, but for what the data bus holds. -/
theorem acceptEvent_withFetchWord (s : State) (nbits w : Nat) :
    acceptEvent s.pending (s.withFetchWord nbits w) = { s with readData := none } := rfl

end Sys2Proof.Machine
end

