-- ==== Sys2Proof/Laws/Timestamp.lean ====
section
/-! SUPPORT. What `marshal` and `unmarshal` compute, described once: the bytes or the registers where every field fits, and
the first error in check order where one does not. -/

namespace Sys2Proof.Machine

/-- The first field above 99, in wire order, is the one reported (R140, R205). -/
theorem marshal_fieldError (maxQh : Nat) (r : TsRegs) {k : Nat} (hk : k < 6) (h : 99 < tsField r k)
    (hj : ∀ j, j < k → tsField r j ≤ 99) :
    marshal maxQh r = .error ⟨.invalidInteger, BitVec.ofNat 32 (tsField r k)⟩ := by
  match k, hk with
  | 0, _ => simp only [tsField] at h; omega
  | 1, _ =>
    have h0 := hj 0 (by omega)
    simp only [tsField] at h h0 ⊢
    simp [marshal, yearPair, bcdEnc_ok h0, bcdEnc_error h, bind, Except.bind]
  | 2, _ =>
    have h0 := hj 0 (by omega)
    have h1 := hj 1 (by omega)
    simp only [tsField] at h h0 h1 ⊢
    simp [marshal, yearPair, bcdEnc_ok h0, bcdEnc_ok h1, bcdEnc_error h, bind, Except.bind]
  | 3, _ =>
    have h0 := hj 0 (by omega)
    have h1 := hj 1 (by omega)
    have h2 := hj 2 (by omega)
    simp only [tsField] at h h0 h1 h2 ⊢
    simp [marshal, yearPair, bcdEnc_ok h0, bcdEnc_ok h1, bcdEnc_ok h2, bcdEnc_error h, bind, Except.bind]
  | 4, _ =>
    have h0 := hj 0 (by omega)
    have h1 := hj 1 (by omega)
    have h2 := hj 2 (by omega)
    have h3 := hj 3 (by omega)
    simp only [tsField] at h h0 h1 h2 h3 ⊢
    simp [marshal, yearPair, bcdEnc_ok h0, bcdEnc_ok h1, bcdEnc_ok h2, bcdEnc_ok h3, bcdEnc_error h, bind, Except.bind]
  | 5, _ =>
    have h0 := hj 0 (by omega)
    have h1 := hj 1 (by omega)
    have h2 := hj 2 (by omega)
    have h3 := hj 3 (by omega)
    have h4 := hj 4 (by omega)
    simp only [tsField] at h h0 h1 h2 h3 h4 ⊢
    simp [marshal, yearPair, bcdEnc_ok h0, bcdEnc_ok h1, bcdEnc_ok h2, bcdEnc_ok h3, bcdEnc_ok h4, bcdEnc_error h, bind,
      Except.bind]

/-- Where the six fields fit, the bytes are the six pairs, then the offset byte (R78, R141). -/
theorem marshal_fields (maxQh : Nat) (r : TsRegs) (h : ∀ k, k < 6 → tsField r k ≤ 99) :
    ∃ b0 b1 b2 b3 b4 b5 : Byte, bcdEnc (tsField r 0) = .ok b0 ∧ bcdEnc (tsField r 1) = .ok b1 ∧
      bcdEnc (tsField r 2) = .ok b2 ∧ bcdEnc (tsField r 3) = .ok b3 ∧ bcdEnc (tsField r 4) = .ok b4 ∧
      bcdEnc (tsField r 5) = .ok b5 ∧
      marshal maxQh r = (tzEnc maxQh (quarterHours r.offset)).map (fun b6 => [b0, b1, b2, b3, b4, b5, b6]) := by
  have e : ∀ k, k < 6 → ∃ b, bcdEnc (tsField r k) = .ok b := fun k hk => ⟨_, bcdEnc_ok (h k hk)⟩
  obtain ⟨b0, h0⟩ := e 0 (by omega)
  obtain ⟨b1, h1⟩ := e 1 (by omega)
  obtain ⟨b2, h2⟩ := e 2 (by omega)
  obtain ⟨b3, h3⟩ := e 3 (by omega)
  obtain ⟨b4, h4⟩ := e 4 (by omega)
  obtain ⟨b5, h5⟩ := e 5 (by omega)
  refine ⟨b0, b1, b2, b3, b4, b5, h0, h1, h2, h3, h4, h5, ?_⟩
  simp only [tsField] at h0 h1 h2 h3 h4 h5
  simp only [marshal, yearPair, h0, h1, h2, h3, h4, h5, bind, Except.bind]
  cases tzEnc maxQh (quarterHours r.offset) <;> rfl

/-- Every output is seven bytes long. -/
theorem marshal_length {maxQh : Nat} {r : TsRegs} {bs : List Byte} (h : marshal maxQh r = .ok bs) : bs.length = 7 := by
  by_cases hf : ∀ k, k < 6 → tsField r k ≤ 99
  · obtain ⟨b0, b1, b2, b3, b4, b5, -, -, -, -, -, -, hm⟩ := marshal_fields maxQh r hf
    rw [hm] at h
    cases ht : tzEnc maxQh (quarterHours r.offset) with
    | error e => rw [ht] at h; cases h
    | ok b => rw [ht] at h; cases h; rfl
  · push Not at hf
    obtain ⟨k, hk, hgt⟩ := hf
    have hex : ∃ k, k < 6 ∧ 99 < tsField r k := ⟨k, hk, hgt⟩
    classical
    have hs := Nat.find_spec hex
    rw [marshal_fieldError maxQh r hs.1 hs.2 (fun j hj => by
      have := Nat.find_min hex hj
      omega)] at h
    cases h

/-- An error of `marshal` is INVALID_INTEGER. -/
theorem marshal_errorKind {maxQh : Nat} {r : TsRegs} {e : CommandError} (h : marshal maxQh r = .error e) :
    e.kind = .invalidInteger := by
  have key : ∀ (v : Nat) (e : CommandError), bcdEnc v = .error e → e.kind = .invalidInteger := by
    intro v e h
    by_cases hv : v ≤ 99
    · rw [bcdEnc_ok hv] at h; cases h
    · rw [bcdEnc_error (by omega)] at h; cases h; rfl
  by_cases hf : ∀ k, k < 6 → tsField r k ≤ 99
  · obtain ⟨b0, b1, b2, b3, b4, b5, -, -, -, -, -, -, hm⟩ := marshal_fields maxQh r hf
    rw [hm] at h
    cases ht : tzEnc maxQh (quarterHours r.offset) with
    | error e' =>
      rw [ht] at h
      cases h
      by_cases hq : (quarterHours r.offset).natAbs ≤ maxQh
      · unfold tzEnc at ht
        rw [if_neg (by omega)] at ht
        cases hb : bcdEnc (quarterHours r.offset).natAbs with
        | error e'' =>
          rw [hb] at ht
          cases ht
          exact key _ _ hb
        | ok b =>
          rw [hb] at ht
          cases ht
      · rw [tzEnc_error (by omega)] at ht
        cases ht
        rfl
    | ok b => rw [ht] at h; cases h
  · push Not at hf
    obtain ⟨k, hk, hgt⟩ := hf
    have hex : ∃ k, k < 6 ∧ 99 < tsField r k := ⟨k, hk, hgt⟩
    classical
    have hs := Nat.find_spec hex
    rw [marshal_fieldError maxQh r hs.1 hs.2 (fun j hj => by
      have := Nat.find_min hex hj
      omega)] at h
    cases h
    rfl

theorem bcdDec_of_isPair {b : Byte} (h : isPair b) : bcdDec b = .ok (pairValue b) := bcdDec_ok h.1 h.2

theorem bcdDec_of_not_isPair {b : Byte} (h : ¬ isPair b) : bcdDec b = .error ⟨.invalidOctet, b.setWidth 32⟩ := by
  apply bcdDec_error
  unfold isPair at h
  omega

/-- The first byte of the six that is no pair is the one reported (R145, R205). -/
theorem unmarshal_octetError (pivot : Nat) (src : Nat → Byte) {k : Nat} (hk : k < 6) (h : ¬ isPair (src k))
    (hj : ∀ j, j < k → isPair (src j)) :
    unmarshal pivot src = .error ⟨.invalidOctet, (src k).setWidth 32⟩ := by
  have ok : ∀ j, j < k → bcdDec (src j) = .ok (pairValue (src j)) := fun j h => bcdDec_of_isPair (hj j h)
  have bad := bcdDec_of_not_isPair h
  match k, hk with
  | 0, _ => simp [unmarshal, bad, bind, Except.bind]
  | 1, _ => simp [unmarshal, bad, ok 0 (by omega), bind, Except.bind]
  | 2, _ => simp [unmarshal, bad, ok 0 (by omega), ok 1 (by omega), bind, Except.bind]
  | 3, _ => simp [unmarshal, bad, ok 0 (by omega), ok 1 (by omega), ok 2 (by omega), bind, Except.bind]
  | 4, _ =>
    simp [unmarshal, bad, ok 0 (by omega), ok 1 (by omega), ok 2 (by omega), ok 3 (by omega), bind, Except.bind]
  | 5, _ =>
    simp [unmarshal, bad, ok 0 (by omega), ok 1 (by omega), ok 2 (by omega), ok 3 (by omega), ok 4 (by omega), bind,
      Except.bind]

/-- Where the six bytes are pairs and the offset byte's units are no digit, the masked offset byte is reported (R145). -/
theorem unmarshal_offsetError (pivot : Nat) (src : Nat → Byte) (h : ∀ k, k < 6 → isPair (src k))
    (h6 : 9 < (src 6).toNat / 16) :
    unmarshal pivot src = .error ⟨.invalidOctet, (src 6 &&& 0xF7).setWidth 32⟩ := by
  have ok : ∀ j, j < 6 → bcdDec (src j) = .ok (pairValue (src j)) := fun j hj => bcdDec_of_isPair (h j hj)
  simp [unmarshal, ok 0 (by omega), ok 1 (by omega), ok 2 (by omega), ok 3 (by omega), ok 4 (by omega), ok 5 (by omega),
    tzDec_error h6, bind, Except.bind]

/-- The registers of seven good bytes (R145). -/
theorem unmarshal_ok (pivot : Nat) (src : Nat → Byte) (h : ∀ k, k < 6 → isPair (src k)) (h6 : (src 6).toNat / 16 ≤ 9) :
    unmarshal pivot src = .ok
      { year := BitVec.ofNat 16 (century pivot (pairValue (src 0)))
        month := BitVec.ofNat 8 (pairValue (src 1))
        day := BitVec.ofNat 8 (pairValue (src 2))
        hour := BitVec.ofNat 8 (pairValue (src 3))
        minute := BitVec.ofNat 8 (pairValue (src 4))
        second := BitVec.ofNat 8 (pairValue (src 5))
        offset := offsetMinutes (quarterCount (src 6)) } := by
  have ok : ∀ j, j < 6 → bcdDec (src j) = .ok (pairValue (src j)) := fun j hj => bcdDec_of_isPair (h j hj)
  simp [unmarshal, ok 0 (by omega), ok 1 (by omega), ok 2 (by omega), ok 3 (by omega), ok 4 (by omega), ok 5 (by omega),
    tzDec_ok h6, quarterCount, bind, Except.bind, pure, Except.pure]

/-- An error of `unmarshal` is INVALID_OCTET. -/
theorem unmarshal_errorKind {pivot : Nat} {src : Nat → Byte} {e : CommandError} (h : unmarshal pivot src = .error e) :
    e.kind = .invalidOctet := by
  by_cases hf : ∀ k, k < 6 → isPair (src k)
  · by_cases h6 : (src 6).toNat / 16 ≤ 9
    · rw [unmarshal_ok pivot src hf h6] at h; cases h
    · rw [unmarshal_offsetError pivot src hf (by omega)] at h; cases h; rfl
  · push Not at hf
    have hex : ∃ k, k < 6 ∧ ¬ isPair (src k) := hf
    classical
    have hs := Nat.find_spec hex
    rw [unmarshal_octetError pivot src hs.1 hs.2 (fun j hj => by
      have := Nat.find_min hex hj
      by_contra hc
      exact this ⟨by omega, hc⟩)] at h
    cases h
    rfl

/-- The byte `bcd_enc` answers is a pair of the value's digits. -/
theorem isPair_of_bcdEnc {v : Nat} {b : Byte} (h : bcdEnc v = .ok b) : isPair b ∧ pairValue b = v := by
  obtain ⟨hv, hb⟩ := bcdEnc_toNat h
  obtain ⟨h0, h1⟩ := pair_digits (by omega) hb
  unfold isPair pairValue
  omega

theorem pairValue_le {b : Byte} (h : isPair b) : pairValue b ≤ 99 := by
  unfold isPair at h
  unfold pairValue
  omega

theorem century_toNat {pivot yy : Nat} (h : yy ≤ 99) : (BitVec.ofNat 16 (century pivot yy)).toNat = century pivot yy := by
  simp only [BitVec.toNat_ofNat, century]
  split <;> omega

/-- Quarter-hours to minutes fit TS_OFFSET (R114). -/
theorem offsetMinutes_toInt {q : Int} (h : q.natAbs ≤ 99) : (offsetMinutes q).toInt = 15 * q := by
  unfold offsetMinutes
  rw [BitVec.toInt_ofInt]
  apply Int.bmod_eq_of_le <;> omega

theorem quarterCount_natAbs {b : Byte} (h : b.toNat / 16 ≤ 9) : (quarterCount b).natAbs ≤ 79 := by
  unfold quarterCount
  split <;> omega

end Sys2Proof.Machine
end

