-- ==== Sys2Proof/Laws/Exec.lean ====
section
/-! SUPPORT. Everything a command can do, said once: `exec_effect`. -/

namespace Sys2Proof.Machine

/-- What a command `i` started in `s` can leave: an error of one of its kinds raised in `s`; bytes stored from DST[0];
the TS registers; CS_OUT. -/
inductive CommandEffect (i : Instr) (s : State) : State → Prop where
  | error (e : CommandError) (h : e.kind ∈ mayRaise i) : CommandEffect i s (State.raise e s)
  | stored (bs : List Byte) (c : Nat) (hi : i = .denc ∨ i = .ddec ∨ i = .tsenc)
      (hb : admissible s.params = true → bs.length ≤ s.params.bufBytes ∧ c ≤ s.params.bufBytes) :
      CommandEffect i s (State.complete bs.length c (State.storeDst bs s))
  | stamped (r : TsRegs) (hi : i = .tsdec) (hb : 7 ≤ s.params.bufBytes) : CommandEffect i s (State.complete 0 7 (State.setTs r s))
  | lookedUp (p : CodePoint) (hi : i = .csdd ∨ i = .csde ∨ i = .csed ∨ i = .csee)
      (hp : admissible s.params = true → p.toNat ≤ maxCodePoint) :
      CommandEffect i s (State.complete 0 0 (State.setCsOut p s))

/-- The equations of DENC, case by case (R120). -/
theorem denc_badLength {s : State} (h : s.params.bufBytes < s.srcLen.toNat) : denc s = .error ⟨.badLength, s.srcLen⟩ := by
  simp [denc, checkLength_error h, bind, Except.bind]

theorem denc_error {s : State} {e : CommandError} (h : s.srcLen.toNat ≤ s.params.bufBytes)
    (he : digitNibbles (srcBytes s s.srcLen.toNat) = .error e) : denc s = .error e := by
  simp [denc, checkLength_ok h, he, bind, Except.bind]

theorem denc_ok {s : State} {ds : List Nibble} (h : s.srcLen.toNat ≤ s.params.bufBytes)
    (hd : digitNibbles (srcBytes s s.srcLen.toNat) = .ok ds) :
    denc s = .ok (State.complete ((s.srcLen.toNat + 1) / 2) s.srcLen.toNat (State.storeDst (packDigits ds) s)) := by
  simp [denc, checkLength_ok h, hd, bind, Except.bind, pure, Except.pure]

/-- The equations of DDEC, case by case (R122). -/
theorem ddec_badSource {s : State} (h : s.params.bufBytes < s.srcLen.toNat) : ddec s = .error ⟨.badLength, s.srcLen⟩ := by
  simp [ddec, checkLength_error h, bind, Except.bind]

theorem ddec_badLimit {s : State} (h : s.srcLen.toNat ≤ s.params.bufBytes) (hl : s.params.bufBytes < s.dstLim.toNat) :
    ddec s = .error ⟨.badLength, s.dstLim⟩ := by
  simp [ddec, checkLength_ok h, checkLength_error hl, bind, Except.bind]

theorem ddec_error {s : State} {b : Byte} (h : s.srcLen.toNat ≤ s.params.bufBytes) (hl : s.dstLim.toNat ≤ s.params.bufBytes)
    (hu : unpackDigits (srcBytes s s.srcLen.toNat) s.dstLim.toNat = .error b) :
    ddec s = .error ⟨.missingFill, b.setWidth 32⟩ := by
  simp [ddec, checkLength_ok h, checkLength_ok hl, hu, bind, Except.bind]

theorem ddec_ok {s : State} {ds : List Byte} {c : Nat} (h : s.srcLen.toNat ≤ s.params.bufBytes)
    (hl : s.dstLim.toNat ≤ s.params.bufBytes) (hu : unpackDigits (srcBytes s s.srcLen.toNat) s.dstLim.toNat = .ok (ds, c)) :
    ddec s = .ok (State.complete ds.length c (State.storeDst ds s)) := by
  simp [ddec, checkLength_ok h, checkLength_ok hl, hu, bind, Except.bind]

/-- The equations of TSENC (R140). -/
theorem tsenc_error {s : State} {e : CommandError} (h : marshal s.params.tzQhMax s.ts = .error e) : tsenc s = .error e := by
  simp [tsenc, h, bind, Except.bind]

theorem tsenc_ok {s : State} {bs : List Byte} (h : marshal s.params.tzQhMax s.ts = .ok bs) :
    tsenc s = .ok (State.complete 7 0 (State.storeDst bs s)) := by
  simp [tsenc, h, bind, Except.bind, pure, Except.pure]

/-- The equations of TSDEC, case by case (R145). -/
theorem tsdec_badLength {s : State} (h : s.params.bufBytes < s.srcLen.toNat) : tsdec s = .error ⟨.badLength, s.srcLen⟩ := by
  simp [tsdec, checkLength_error h, bind, Except.bind]

theorem tsdec_underflow {s : State} (h : s.srcLen.toNat ≤ s.params.bufBytes) (h7 : s.srcLen.toNat < 7) :
    tsdec s = .error ⟨.underflow, s.srcLen⟩ := by
  simp [tsdec, checkLength_ok h, h7, bind, Except.bind]

theorem tsdec_error {s : State} {e : CommandError} (h : s.srcLen.toNat ≤ s.params.bufBytes) (h7 : 7 ≤ s.srcLen.toNat)
    (he : unmarshal s.params.centuryPivot s.srcByte = .error e) : tsdec s = .error e := by
  simp [tsdec, checkLength_ok h, Nat.not_lt.2 h7, he, bind, Except.bind]

theorem tsdec_ok {s : State} {r : TsRegs} (h : s.srcLen.toNat ≤ s.params.bufBytes) (h7 : 7 ≤ s.srcLen.toNat)
    (hr : unmarshal s.params.centuryPivot s.srcByte = .ok r) : tsdec s = .ok (State.complete 0 7 (State.setTs r s)) := by
  simp [tsdec, checkLength_ok h, Nat.not_lt.2 h7, hr, bind, Except.bind, pure, Except.pure]

theorem conclude_ok (s t : State) : conclude s (.ok t) = .next t := rfl

theorem conclude_error (s : State) (e : CommandError) : conclude s (.error e) = .next (State.raise e s) := rfl

theorem denc_effect (s : State) : ∃ t, execDenc s = .next t ∧ CommandEffect .denc s t := by
  by_cases h : s.srcLen.toNat ≤ s.params.bufBytes
  · cases hd : digitNibbles (srcBytes s s.srcLen.toNat) with
    | error e =>
      exact ⟨_, by rw [execDenc, denc_error h hd, conclude_error], .error e (by simp [mayRaise, digitNibbles_errorKind hd])⟩
    | ok ds =>
      have hl := digitNibbles_length hd
      rw [srcBytes_length] at hl
      have hp := packDigits_length ds
      rw [hl] at hp
      refine ⟨_, by rw [execDenc, denc_ok h hd, conclude_ok, ← hp], .stored _ _ (by simp) (fun _ => ?_)⟩
      omega
  · exact ⟨_, by rw [execDenc, denc_badLength (by omega), conclude_error], .error _ (by simp [mayRaise])⟩

theorem ddec_effect (s : State) : ∃ t, execDdec s = .next t ∧ CommandEffect .ddec s t := by
  by_cases h : s.srcLen.toNat ≤ s.params.bufBytes
  · by_cases hl : s.dstLim.toNat ≤ s.params.bufBytes
    · cases hu : unpackDigits (srcBytes s s.srcLen.toNat) s.dstLim.toNat with
      | error b => exact ⟨_, by rw [execDdec, ddec_error h hl hu, conclude_error], .error _ (by simp [mayRaise])⟩
      | ok dc =>
        obtain ⟨ds, c⟩ := dc
        have hb := unpackDigits_bounds _ _ _ _ hu
        rw [srcBytes_length] at hb
        refine ⟨_, by rw [execDdec, ddec_ok h hl hu, conclude_ok], .stored _ _ (by simp) (fun _ => ?_)⟩
        omega
    · exact ⟨_, by rw [execDdec, ddec_badLimit h (by omega), conclude_error], .error _ (by simp [mayRaise])⟩
  · exact ⟨_, by rw [execDdec, ddec_badSource (by omega), conclude_error], .error _ (by simp [mayRaise])⟩

theorem tsenc_effect (s : State) : ∃ t, execTsenc s = .next t ∧ CommandEffect .tsenc s t := by
  cases hm : marshal s.params.tzQhMax s.ts with
  | error e =>
    exact ⟨_, by rw [execTsenc, tsenc_error hm, conclude_error], .error e (by simp [mayRaise, marshal_errorKind hm])⟩
  | ok bs =>
    have hl := marshal_length hm
    refine ⟨_, by rw [execTsenc, tsenc_ok hm, conclude_ok, ← hl], .stored bs 0 (by simp) (fun ha => ?_)⟩
    have := admissible_numbers ha
    omega

theorem tsdec_effect (s : State) : ∃ t, execTsdec s = .next t ∧ CommandEffect .tsdec s t := by
  by_cases h : s.srcLen.toNat ≤ s.params.bufBytes
  · by_cases h7 : 7 ≤ s.srcLen.toNat
    · cases hu : unmarshal s.params.centuryPivot s.srcByte with
      | error e =>
        exact ⟨_, by rw [execTsdec, tsdec_error h h7 hu, conclude_error], .error e (by simp [mayRaise, unmarshal_errorKind hu])⟩
      | ok r => exact ⟨_, by rw [execTsdec, tsdec_ok h h7 hu, conclude_ok], .stamped r rfl (by omega)⟩
    · exact ⟨_, by rw [execTsdec, tsdec_underflow h (by omega), conclude_error], .error _ (by simp [mayRaise])⟩
  · exact ⟨_, by rw [execTsdec, tsdec_badLength (by omega), conclude_error], .error _ (by simp [mayRaise])⟩

theorem romDecode_some {rom : List (Option CodePoint)} {x : Word} {p : CodePoint} (h : romDecode rom x = some p) :
    x.toNat ≤ 0x7F ∧ romLookup rom x.toNat = some p := by
  simp only [romDecode] at h
  split at h
  · cases h
  · exact ⟨by omega, h⟩

/-- A decode command over the image `rom`. -/
theorem charsetDecode_effect {i : Instr} {s : State} {rom : List (Option CodePoint)} (hi : i = .csdd ∨ i = .csde)
    (hr : admissible s.params = true → romShape rom = true) :
    ∃ t, conclude s (charsetDecode rom s) = .next t ∧ CommandEffect i s t := by
  unfold charsetDecode
  split
  · exact ⟨_, rfl, .error _ (by rcases hi with rfl | rfl <;> simp [mayRaise])⟩
  · rename_i p hp
    refine ⟨_, rfl, .lookedUp p (by tauto) (fun ha => ?_)⟩
    exact ((romShape_iff rom).1 (hr ha)).2 _ _ (romDecode_some hp).2

/-- An encode command over the image `rom`. -/
theorem charsetEncode_effect {i : Instr} {s : State} {rom : List (Option CodePoint)} (hi : i = .csed ∨ i = .csee)
    (hr : admissible s.params = true → romShape rom = true) :
    ∃ t, conclude s (charsetEncode rom s) = .next t ∧ CommandEffect i s t := by
  unfold charsetEncode
  split
  · exact ⟨_, rfl, .error _ (by rcases hi with rfl | rfl <;> simp [mayRaise])⟩
  · rename_i c hc
    refine ⟨_, rfl, .lookedUp _ (by tauto) (fun ha => ?_)⟩
    have hl := ((romShape_iff rom).1 (hr ha)).1
    have hb := (firstCode_sound hc).2.1
    simp only [BitVec.toNat_ofNat, maxCodePoint]
    omega

/-- EVERYTHING A COMMAND CAN DO: it always answers a next state, one of `CommandEffect`'s. -/
theorem exec_effect (i : Instr) (s : State) : ∃ t, exec i s = .next t ∧ CommandEffect i s t := by
  have hd : admissible s.params = true → romShape s.params.defDec = true := fun h => ((admissible_iff _).1 h).2.1
  have he : admissible s.params = true → romShape s.params.extDec = true := fun h => ((admissible_iff _).1 h).2.2.1
  cases i with
  | denc => exact denc_effect s
  | ddec => exact ddec_effect s
  | tsenc => exact tsenc_effect s
  | tsdec => exact tsdec_effect s
  | csdd => exact charsetDecode_effect (.inl rfl) hd
  | csde => exact charsetDecode_effect (.inr rfl) he
  | csed => exact charsetEncode_effect (.inl rfl) hd
  | csee => exact charsetEncode_effect (.inr rfl) he

/-- The inversion of `exec`. -/
theorem effect_of_exec {i : Instr} {s t : State} (h : exec i s = .next t) : CommandEffect i s t := by
  obtain ⟨t', h', he⟩ := exec_effect i s
  rw [h] at h'
  cases h'
  exact he

/-- What no command touches, and the bit every command sets. -/
theorem CommandEffect.keeps {i : Instr} {s t : State} (he : CommandEffect i s t) :
    t.params = s.params ∧ t.srcBuf = s.srcBuf ∧ t.srcLen = s.srcLen ∧ t.dstLim = s.dstLim ∧ t.csIn = s.csIn ∧
      t.draws = s.draws ∧ t.pending = s.pending ∧ t.readData = s.readData ∧ t.status.done = true := by
  cases he <;> simp

end Sys2Proof.Machine
end

