-- ==== Sys2Proof/Laws/Memory.lean ====
section
/-! SUPPORT. The laws of a buffer: reading after writing, and that every write keeps the canonical form and the buffer's
size. -/

namespace Sys2Proof.Machine

@[simp] theorem Memory.read_nil (i : Nat) : Memory.read [] i = none := rfl

@[simp] theorem Memory.wf_nil : Memory.wf [] = true := rfl

@[simp] theorem Memory.within_nil (n : Nat) : Memory.within n [] = true := rfl

/-- Where every listed index is above `i`, index `i` is not listed. -/
theorem Memory.read_none_of_risesFrom {m : Memory} : ∀ {i j : Nat}, m.risesFrom i = true → j ≤ i → m.read j = none := by
  induction m with
  | nil => intros; rfl
  | cons c rest ih =>
    intro i j h hj
    obtain ⟨k, b⟩ := c
    simp only [Memory.risesFrom, Bool.and_eq_true, Nat.blt_eq] at h
    have hk : k ≠ j := by omega
    simp only [Memory.read, hk, if_false]
    exact ih h.2 (by omega)

theorem Memory.risesFrom_mono {m : Memory} {i j : Nat} (h : m.risesFrom i = true) (hj : j ≤ i) : m.risesFrom j = true := by
  cases m with
  | nil => rfl
  | cons c rest =>
    simp only [Memory.risesFrom, Bool.and_eq_true, Nat.blt_eq] at h ⊢
    exact ⟨by omega, h.2⟩

/-- A byte written reads back. -/
@[simp] theorem Memory.read_write_same (m : Memory) (i : Nat) (b : Byte) : (m.write i b).read i = some b := by
  induction m with
  | nil => simp [Memory.write, Memory.read]
  | cons c rest ih =>
    obtain ⟨k, x⟩ := c
    unfold Memory.write
    split
    · simp [Memory.read]
    · split
      · simp [Memory.read]
      · rename_i h1 h2
        have hk : k ≠ i := by omega
        simpa [Memory.read, hk] using ih

/-- Writing one byte leaves every other byte. -/
theorem Memory.read_write_other (m : Memory) {i j : Nat} (b : Byte) (h : i ≠ j) : (m.write i b).read j = m.read j := by
  induction m with
  | nil => simp [Memory.write, Memory.read, h]
  | cons c rest ih =>
    obtain ⟨k, x⟩ := c
    unfold Memory.write
    split
    · simp [Memory.read, h]
    · split
      · rename_i h1 h2
        subst h2
        simp [Memory.read, h]
      · simp only [Memory.read, ih]

/-- A byte below the first index written is left. -/
theorem Memory.read_writeAll_below (bs : List Byte) : ∀ (m : Memory) (i j : Nat), j < i →
    (m.writeAll i bs).read j = m.read j := by
  induction bs with
  | nil => intros; rfl
  | cons b bs ih =>
    intro m i j h
    simp only [Memory.writeAll]
    rw [ih _ _ _ (by omega), Memory.read_write_other _ _ (by omega)]

/-- A byte at or past the last index written is left. -/
theorem Memory.read_writeAll_above (bs : List Byte) : ∀ (m : Memory) (i j : Nat), i + bs.length ≤ j →
    (m.writeAll i bs).read j = m.read j := by
  induction bs with
  | nil => intros; rfl
  | cons b bs ih =>
    intro m i j h
    simp only [List.length_cons] at h
    simp only [Memory.writeAll]
    rw [ih _ _ _ (by omega), Memory.read_write_other _ _ (by omega)]

/-- The bytes written read back. -/
theorem Memory.read_writeAll (bs : List Byte) : ∀ (m : Memory) (i k : Nat) (h : k < bs.length),
    (m.writeAll i bs).read (i + k) = some bs[k] := by
  induction bs with
  | nil => intro m i k h; simp at h
  | cons b bs ih =>
    intro m i k h
    simp only [Memory.writeAll]
    cases k with
    | zero => rw [Memory.read_writeAll_below _ _ _ _ (by omega)]; simp
    | succ k =>
      have := ih (m.write i b) (i + 1) k (by simpa using h)
      simpa [Nat.add_assoc, Nat.add_comm 1 k] using this

/-- The four bytes of a word written read back. -/
theorem Memory.read_writeAll_word (m : Memory) (i : Nat) (b0 b1 b2 b3 : Byte) {j : Nat} (h : j < 4) :
    (m.writeAll i [b0, b1, b2, b3]).read (i + j) = some ([b0, b1, b2, b3].getD j 0) := by
  rw [Memory.read_writeAll [b0, b1, b2, b3] m i j (by simpa using h), List.getD_eq_getElem?_getD,
    List.getElem?_eq_getElem (by simpa using h)]
  rfl

theorem Memory.risesFrom_write {m : Memory} : ∀ {a i : Nat} (b : Byte), m.risesFrom a = true → a < i →
    (m.write i b).risesFrom a = true := by
  induction m with
  | nil => intro a i b _ h; simp [Memory.write, Memory.risesFrom, h]
  | cons c rest ih =>
    intro a i b hm h
    obtain ⟨k, x⟩ := c
    simp only [Memory.risesFrom, Bool.and_eq_true, Nat.blt_eq] at hm
    unfold Memory.write
    split
    · simp only [Memory.risesFrom, Bool.and_eq_true, Nat.blt_eq]
      exact ⟨h, by omega, hm.2⟩
    · split
      · rename_i h1 h2
        subst h2
        simp only [Memory.risesFrom, Bool.and_eq_true, Nat.blt_eq]
        exact ⟨h, hm.2⟩
      · simp only [Memory.risesFrom, Bool.and_eq_true, Nat.blt_eq]
        exact ⟨hm.1, ih b hm.2 (by omega)⟩

/-- Writing a byte keeps the canonical form. -/
theorem Memory.wf_write {m : Memory} (i : Nat) (b : Byte) (h : m.wf = true) : (m.write i b).wf = true := by
  cases m with
  | nil => rfl
  | cons c rest =>
    obtain ⟨k, x⟩ := c
    simp only [Memory.wf] at h
    unfold Memory.write
    split
    · simp only [Memory.wf, Memory.risesFrom, Bool.and_eq_true, Nat.blt_eq]
      exact ⟨by omega, h⟩
    · split
      · rename_i h1 h2
        subst h2
        simpa [Memory.wf] using h
      · simp only [Memory.wf]
        exact Memory.risesFrom_write b h (by omega)

/-- Writing bytes keeps the canonical form. -/
theorem Memory.wf_writeAll (bs : List Byte) : ∀ {m : Memory} (i : Nat), m.wf = true → (m.writeAll i bs).wf = true := by
  induction bs with
  | nil => intro m i h; exact h
  | cons b bs ih => intro m i h; exact ih (i + 1) (Memory.wf_write i b h)

/-- A byte written below `n` keeps every listed index below `n`. -/
theorem Memory.within_write {n : Nat} {m : Memory} {i : Nat} (b : Byte) (h : m.within n = true) (hi : i < n) :
    (m.write i b).within n = true := by
  induction m with
  | nil => simp [Memory.write, Memory.within, hi]
  | cons c rest ih =>
    obtain ⟨k, x⟩ := c
    simp only [Memory.within, List.all_cons, Bool.and_eq_true, Nat.blt_eq] at h ih
    unfold Memory.write
    split
    · simp [Memory.within, hi, h.1, h.2]
    · split
      · simp [Memory.within, hi, h.2]
      · simp only [Memory.within, List.all_cons, Bool.and_eq_true, Nat.blt_eq]
        exact ⟨h.1, ih h.2⟩

/-- Bytes written below `n` keep every listed index below `n`. -/
theorem Memory.within_writeAll {n : Nat} (bs : List Byte) : ∀ {m : Memory} (i : Nat), m.within n = true →
    i + bs.length ≤ n → (m.writeAll i bs).within n = true := by
  induction bs with
  | nil => intro m i h _; exact h
  | cons b bs ih =>
    intro m i h hi
    simp only [List.length_cons] at hi
    exact ih (i + 1) (Memory.within_write b h (by omega)) (by omega)

/-- An index at or past the buffer's size is never listed. -/
theorem Memory.read_none_of_within {n : Nat} {m : Memory} {i : Nat} (h : m.within n = true) (hi : n ≤ i) :
    m.read i = none := by
  induction m with
  | nil => rfl
  | cons c rest ih =>
    obtain ⟨k, x⟩ := c
    simp only [Memory.within, List.all_cons, Bool.and_eq_true, Nat.blt_eq] at h ih
    have hk : k ≠ i := by omega
    simpa [Memory.read, hk] using ih h.2

/-- The bytes a command stores in DSTBUF read back. -/
theorem storeDst_dstByte_lt (bs : List Byte) (s : State) {k : Nat} (h : k < bs.length) :
    (State.storeDst bs s).dstByte k = bs[k] := by
  have := Memory.read_writeAll bs s.dstBuf 0 k h
  simp only [Nat.zero_add] at this
  simp [State.dstByte, State.storeDst, this]

/-- The bytes past those a command stores are left. -/
theorem storeDst_dstByte_ge (bs : List Byte) (s : State) {k : Nat} (h : bs.length ≤ k) :
    (State.storeDst bs s).dstByte k = s.dstByte k := by
  simp [State.dstByte, State.storeDst, Memory.read_writeAll_above bs s.dstBuf 0 k (by omega)]

end Sys2Proof.Machine
end

