-- ==== Sys2Proof/Laws/PerInstr.lean ====
section
/-! SUPPORT. A family stated per constructor of Instr: the command word has OP as R72 gives it and its reserved bits zero. -/

namespace Sys2Proof.Laws.CommandWord

/-- The command is well formed, and its word has its OP value in bits [3:0] and zero in bits [31:4] (R70, R72). -/
def Statement (i : Instr) : Prop :=
  i.wellFormed = true ∧ opField (encode i) = opOf i ∧ rsvField (encode i) = 0

theorem denc : Statement .denc := by unfold Statement; decide
theorem ddec : Statement .ddec := by unfold Statement; decide
theorem tsenc : Statement .tsenc := by unfold Statement; decide
theorem tsdec : Statement .tsdec := by unfold Statement; decide
theorem csdd : Statement .csdd := by unfold Statement; decide
theorem csde : Statement .csde := by unfold Statement; decide
theorem csed : Statement .csed := by unfold Statement; decide
theorem csee : Statement .csee := by unfold Statement; decide

end Sys2Proof.Laws.CommandWord
end

