-- ==== Sys2Proof/Laws/Step.lean ====
section
/-! SUPPORT. The window's map, its words and everything a step can do, said once: `step_effect`. -/

namespace Sys2Proof.Machine

/-- The only location of a source word is inside SRCBUF (R51). -/
theorem locate_source {buf off i : Nat} (h : locate buf off = .source i) : off = 0x1000 + i ∧ i < buf := by
  unfold locate at h
  split at h
  · split at h <;> cases h
  · split at h
    · rw [Location.source.injEq] at h; omega
    · split at h <;> cases h

/-- The only location of a destination word is inside DSTBUF (R51). -/
theorem locate_destination {buf off i : Nat} (h : locate buf off = .destination i) : off = 0x2000 + i ∧ i < buf := by
  unfold locate at h
  split at h
  · split at h <;> cases h
  · split at h
    · cases h
    · split at h
      · rw [Location.destination.injEq] at h; omega
      · cases h

theorem supported_iff (size off : Nat) : supported size off = true ↔ size = 4 ∧ off % 4 = 0 := by
  simp [supported]

/-- An address in the window has its offset. -/
theorem windowOffset_base {base off : Nat} (h : off < 0x4000) : windowOffset base (base + off) = some off := by
  simp [windowOffset, h]

/-- What a word of the window written by the host leaves as it was: everything the invariant speaks of but the buffers,
which keep their form (R55). -/
theorem writeLocation_keeps {s : State} {l : Location} {w : Word} :
    (writeLocation l w s).params = s.params ∧ (writeLocation l w s).status = s.status ∧
      (writeLocation l w s).errVal = s.errVal ∧ (writeLocation l w s).outLen = s.outLen ∧
      (writeLocation l w s).consumed = s.consumed ∧ (writeLocation l w s).csOut = s.csOut ∧
      (writeLocation l w s).draws = s.draws ∧ (writeLocation l w s).pending = s.pending ∧
      (writeLocation l w s).readData = s.readData := by
  cases l with
  | register r => cases r <;> simp [writeLocation, writeRegister]
  | source i => simp [writeLocation]
  | destination i => simp [writeLocation]
  | unused => simp [writeLocation]

theorem writeLocation_src {s : State} {l : Location} {w : Word} {n : Nat} (hw : s.srcBuf.wf = true)
    (hn : s.srcBuf.within n = true) (hl : ∀ i, l = .source i → i + 4 ≤ n) :
    (writeLocation l w s).srcBuf.wf = true ∧ (writeLocation l w s).srcBuf.within n = true := by
  cases l with
  | register r => cases r <;> exact ⟨hw, hn⟩
  | source i => exact ⟨Memory.wf_writeAll _ _ hw, Memory.within_writeAll _ _ hn (by simpa using hl i rfl)⟩
  | destination i => exact ⟨hw, hn⟩
  | unused => exact ⟨hw, hn⟩

theorem writeLocation_dst {s : State} {l : Location} {w : Word} {n : Nat} (hw : s.dstBuf.wf = true)
    (hn : s.dstBuf.within n = true) (hl : ∀ i, l = .destination i → i + 4 ≤ n) :
    (writeLocation l w s).dstBuf.wf = true ∧ (writeLocation l w s).dstBuf.within n = true := by
  cases l with
  | register r => cases r <;> exact ⟨hw, hn⟩
  | source i => exact ⟨hw, hn⟩
  | destination i => exact ⟨Memory.wf_writeAll _ _ hw, Memory.within_writeAll _ _ hn (by simpa using hl i rfl)⟩
  | unused => exact ⟨hw, hn⟩

/-- What a CMD write can leave: the effect of the command its word decodes to, or ILLEGAL_COMMAND raised (R22, R73). -/
theorem runCommand_effect (w : Word) (s : State) : ∃ t, runCommand w s = .next t ∧
    ((∃ i, decode w = .ok i ∧ CommandEffect i s t) ∨
      ((∃ e, decode w = .error e) ∧ t = State.raise ⟨.illegalCommand, w⟩ s)) := by
  unfold runCommand
  cases hd : decode w with
  | ok i =>
    obtain ⟨t, ht, he⟩ := exec_effect i s
    exact ⟨t, ht, .inl ⟨i, rfl, he⟩⟩
  | error e => exact ⟨_, rfl, .inr ⟨⟨e, rfl⟩, rfl⟩⟩

/-- EVERYTHING A STEP CAN DO when it answers a next state. `a` is the state in which the event at the head of `pending` is
handled. -/
inductive StepEffect (s : State) : State → Prop where
  | idle (h : s.pending = []) : StepEffect s s
  | reset (lost : Option HostAccess) (rest : List HostEvent) (h : s.pending = .reset lost :: rest) :
      StepEffect s (applyReset (acceptEvent rest s))
  | read (addr off : Nat) (rest : List HostEvent) (h : s.pending = .access (.read 4 addr) :: rest)
      (ho : windowOffset s.params.blockBase addr = some off) (ha : off % 4 = 0) :
      StepEffect s { acceptEvent rest s with
        readData := some (readLocation (locate s.params.bufBytes off) (acceptEvent rest s)) }
  | write (addr off : Nat) (w : Word) (rest : List HostEvent) (h : s.pending = .access (.write 4 addr w) :: rest)
      (ho : windowOffset s.params.blockBase addr = some off) (ha : off % 4 = 0)
      (hl : locate s.params.bufBytes off ≠ .register .cmd) :
      StepEffect s (writeLocation (locate s.params.bufBytes off) w (acceptEvent rest s))
  | command (addr off : Nat) (w : Word) (rest : List HostEvent) (h : s.pending = .access (.write 4 addr w) :: rest)
      (ho : windowOffset s.params.blockBase addr = some off) (ha : off % 4 = 0)
      (hl : locate s.params.bufBytes off = .register .cmd) (t : State) (ht : runCommand w (acceptEvent rest s) = .next t) :
      StepEffect s t

theorem storeAt_register_cmd (w : Word) (s : State) : storeAt (.register .cmd) w s = runCommand w s := rfl

theorem storeAt_other {l : Location} (w : Word) (s : State) (h : l ≠ .register .cmd) :
    storeAt l w s = .next (writeLocation l w s) := by
  unfold storeAt
  split
  · exact absurd rfl h
  · rfl

/-- The inversion of `step`. -/
theorem step_effect {s t : State} (h : step s = .next t) : admissible s.params = true ∧ StepEffect s t := by
  unfold step at h
  split at h
  · rename_i hadm
    refine ⟨hadm, ?_⟩
    split at h
    · rename_i hp
      cases h
      exact .idle hp
    · rename_i e rest hp
      cases e with
      | reset lost =>
        cases h
        exact .reset lost rest hp
      | access a =>
        simp only [handle, perform] at h
        split at h
        · cases h
        · rename_i off ho
          cases a with
          | fetch addr => cases h
          | read size addr =>
            simp only [performAt] at h
            split at h
            · rename_i hs
              obtain ⟨rfl, ha⟩ := (supported_iff size off).1 hs
              cases h
              exact .read addr off rest hp ho ha
            · cases h
          | write size addr w =>
            simp only [performAt] at h
            split at h
            · rename_i hs
              obtain ⟨rfl, ha⟩ := (supported_iff size off).1 hs
              by_cases hl : locate s.params.bufBytes off = .register .cmd
              · rw [acceptEvent_params, hl, storeAt_register_cmd] at h
                exact .command addr off w rest hp ho ha hl t h
              · rw [acceptEvent_params, storeAt_other _ _ hl] at h
                cases h
                exact .write addr off w rest hp ho ha hl
            · cases h
  · cases h

/-- A step on an access, unfolded once. -/
theorem step_access {s : State} {a : HostAccess} {rest : List HostEvent} (hadm : admissible s.params = true)
    (hp : s.pending = .access a :: rest) : step s = perform a (acceptEvent rest s) := by
  unfold step
  rw [if_pos hadm, hp]
  rfl

/-- A supported read answers the word at its location and changes nothing else (R55). -/
theorem step_read {s : State} {off : Nat} {rest : List HostEvent} (hadm : admissible s.params = true) (ho : off < 0x4000)
    (ha : off % 4 = 0) (hp : s.pending = .access (.read 4 (s.params.blockBase + off)) :: rest) :
    step s = .next { s with
      pending := rest, readData := some (readLocation (locate s.params.bufBytes off) (acceptEvent rest s)) } := by
  rw [step_access hadm hp]
  simp only [perform, HostAccess.addr, acceptEvent_params, windowOffset_base ho, performAt]
  rw [if_pos ((supported_iff 4 off).2 ⟨rfl, ha⟩)]
  rfl

/-- A supported write acts at its location. -/
theorem step_write {s : State} {off : Nat} {w : Word} {rest : List HostEvent} (hadm : admissible s.params = true)
    (ho : off < 0x4000) (ha : off % 4 = 0) (hp : s.pending = .access (.write 4 (s.params.blockBase + off) w) :: rest) :
    step s = storeAt (locate s.params.bufBytes off) w (acceptEvent rest s) := by
  rw [step_access hadm hp]
  simp only [perform, HostAccess.addr, acceptEvent_params, windowOffset_base ho, performAt]
  rw [if_pos ((supported_iff 4 off).2 ⟨rfl, ha⟩)]

theorem locate_register (buf : Nat) {off : Nat} {r : RegName} (h : registerAt off = some r) (ho : off < 0x100) :
    locate buf off = .register r := by
  simp [locate, ho, h]

theorem locate_src_word {buf k : Nat} (hk : 4 * k < buf) (hb : buf ≤ 4096) : locate buf (0x1000 + 4 * k) = .source (4 * k) := by
  unfold locate
  rw [if_neg (by omega), if_pos (by omega), Nat.add_sub_cancel_left]

theorem locate_dst_word {buf k : Nat} (hk : 4 * k < buf) (hb : buf ≤ 4096) :
    locate buf (0x2000 + 4 * k) = .destination (4 * k) := by
  unfold locate
  rw [if_neg (by omega), if_neg (by omega), if_pos (by omega), Nat.add_sub_cancel_left]

/-- A write of a word to CMD, at offset 0 of the window, runs a command (R22). -/
theorem step_cmd {s : State} {w : Word} {rest : List HostEvent} (hadm : admissible s.params = true)
    (hp : s.pending = .access (.write 4 s.params.blockBase w) :: rest) : step s = runCommand w (acceptEvent rest s) := by
  have hp' : s.pending = .access (.write 4 (s.params.blockBase + 0) w) :: rest := hp
  rw [step_write hadm (by omega) rfl hp', locate_register _ (r := .cmd) rfl (by omega)]
  rfl

/-- What no CMD write touches, and the bit each one sets. -/
theorem runCommand_keeps {s t : State} {w : Word} (ht : runCommand w s = .next t) :
    t.params = s.params ∧ t.srcBuf = s.srcBuf ∧ t.srcLen = s.srcLen ∧ t.dstLim = s.dstLim ∧ t.csIn = s.csIn ∧
      t.draws = s.draws ∧ t.pending = s.pending ∧ t.readData = s.readData ∧ t.status.done = true := by
  obtain ⟨t', ht', he⟩ := runCommand_effect w s
  rw [ht] at ht'
  cases ht'
  rcases he with ⟨i, -, he⟩ | ⟨-, rfl⟩
  · exact he.keeps
  · simp

theorem wordOf_toNat (b0 b1 b2 b3 : Byte) :
    (wordOf b0 b1 b2 b3).toNat = b0.toNat + 256 * b1.toNat + 65536 * b2.toNat + 16777216 * b3.toNat := by
  have h0 := b0.isLt
  have h1 := b1.isLt
  have h2 := b2.isLt
  simp only [wordOf, BitVec.toNat_append]
  rw [← Nat.shiftLeft_add_eq_or_of_lt (by omega), ← Nat.shiftLeft_add_eq_or_of_lt (by omega),
    ← Nat.shiftLeft_add_eq_or_of_lt (by omega)]
  simp only [Nat.shiftLeft_eq]
  omega

/-- Byte `j` of a little-endian word is the byte at index `j` (R51). -/
theorem byteOf_wordOf (b0 b1 b2 b3 : Byte) {j : Nat} (h : j < 4) :
    byteOf (wordOf b0 b1 b2 b3) j = [b0, b1, b2, b3].getD j 0 := by
  have h0 := b0.isLt
  have h1 := b1.isLt
  have h2 := b2.isLt
  have h3 := b3.isLt
  apply BitVec.eq_of_toNat_eq
  rw [byteOf, BitVec.extractLsb'_toNat, wordOf_toNat, Nat.shiftRight_eq_div_pow]
  match j, h with
  | 0, _ => simp; omega
  | 1, _ => simp; omega
  | 2, _ => simp; omega
  | 3, _ => simp; omega

/-- A word is its four bytes, little-endian (R51). -/
theorem wordOf_byteOf (w : Word) : wordOf (byteOf w 0) (byteOf w 1) (byteOf w 2) (byteOf w 3) = w := by
  have hw := w.isLt
  apply BitVec.eq_of_toNat_eq
  rw [wordOf_toNat]
  simp only [byteOf, BitVec.extractLsb'_toNat, Nat.shiftRight_eq_div_pow]
  omega

/-- What a host write of a buffer word leaves in SRCBUF. -/
theorem step_write_source {s : State} {k : Nat} {w : Word} {rest : List HostEvent} (hadm : admissible s.params = true)
    (hk : 4 * k < s.params.bufBytes)
    (hp : s.pending = .access (.write 4 (s.params.blockBase + (0x1000 + 4 * k)) w) :: rest) :
    step s = .next { s with
      pending := rest, readData := none,
      srcBuf := Memory.writeAll s.srcBuf (4 * k) [byteOf w 0, byteOf w 1, byteOf w 2, byteOf w 3] } := by
  have hn := admissible_numbers hadm
  rw [step_write hadm (by omega) (by omega) hp, locate_src_word hk (by omega), storeAt_other _ _ (by simp)]
  rfl

/-- What a host write of a buffer word leaves in DSTBUF. -/
theorem step_write_destination {s : State} {k : Nat} {w : Word} {rest : List HostEvent} (hadm : admissible s.params = true)
    (hk : 4 * k < s.params.bufBytes)
    (hp : s.pending = .access (.write 4 (s.params.blockBase + (0x2000 + 4 * k)) w) :: rest) :
    step s = .next { s with
      pending := rest, readData := none,
      dstBuf := Memory.writeAll s.dstBuf (4 * k) [byteOf w 0, byteOf w 1, byteOf w 2, byteOf w 3] } := by
  have hn := admissible_numbers hadm
  rw [step_write hadm (by omega) (by omega) hp, locate_dst_word hk (by omega), storeAt_other _ _ (by simp)]
  rfl

/-- How many accesses `LDSRC` stands for (R83). -/
theorem loadWords_length (base : Nat) (bs : List Byte) : ∀ off, (loadWords base off bs).length = (bs.length + 3) / 4 := by
  fun_induction loadWords base 0 bs with
  | case1 => intro off; rfl
  | case2 => intro off; simp [loadWords]
  | case3 => intro off; simp [loadWords]
  | case4 => intro off; simp [loadWords]
  | case5 off b0 b1 b2 b3 rest ih =>
    intro off'
    simp only [loadWords, List.length_cons, ih]
    omega

/-- One step of a run of any machine that answers a next state. -/
theorem run_of_step (m : Host.Core) {s t : m.State} {n : Nat} (h : m.step s = .next t) : m.run (n + 1) s = m.run n t := by
  rw [Host.Core.run, h]

/-- The same for the block. -/
theorem core_run_of_step {s t : State} {n : Nat} (h : step s = .next t) :
    Host.Core.run Sys2Proof.core (n + 1) s = Host.Core.run Sys2Proof.core n t :=
  run_of_step Sys2Proof.core h

end Sys2Proof.Machine
end

