-- ==== Sys2Proof/Tests/Slice0.lean ====
section
/-! SUPPORT. Tests on small states, every expected result from spec/ (the vector of 95_test_vectors.md or the rule is named),
and for every obligation with hypotheses a state and operands that meet them all. -/

namespace Sys2Proof.Tests

open Sys2Proof Sys2Proof.Machine

/-! ## Helpers -/

/-- The block after reset with the bytes `bs` written at SRC[0..], their number in SRC_LEN and `lim` in DST_LIM. -/
def loaded (bs : List Byte) (lim : Nat) : State :=
  { State.reset with
    srcBuf := Memory.writeAll [] 0 bs, srcLen := BitVec.ofNat 32 bs.length, dstLim := BitVec.ofNat 32 lim }

/-- The block after reset with the TS registers `r`. -/
def stamped (r : TsRegs) : State := { State.reset with ts := r }

/-- The block after reset with CS_IN = `x`. -/
def asked (x : Word) : State := { State.reset with csIn := x }

/-- The block after reset with the host's next events `es`. -/
def facing (es : List HostEvent) : State := { State.reset with pending := es }

/-- ERR, ERRVAL, OUT_LEN, CONSUMED and the bytes written in DSTBUF. -/
structure Result where
  err : ErrKind
  errVal : Word
  outLen : Word
  consumed : Word
  dst : Memory
deriving DecidableEq, Repr

/-- The result registers and DSTBUF of a next state. -/
def result : Host.Outcome State Fault Refusal → Option Result
  | .next t => some ⟨t.status.err, t.errVal, t.outLen, t.consumed, t.dstBuf⟩
  | .fault _ => none
  | .refused _ => none

/-- ERR, ERRVAL and the TS registers of a next state. -/
def stamp : Host.Outcome State Fault Refusal → Option (ErrKind × Word × TsRegs)
  | .next t => some (t.status.err, t.errVal, t.ts)
  | .fault _ => none
  | .refused _ => none

/-- ERR, ERRVAL and CS_OUT of a next state. -/
def answer : Host.Outcome State Fault Refusal → Option (ErrKind × Word × CodePoint)
  | .next t => some (t.status.err, t.errVal, t.csOut)
  | .fault _ => none
  | .refused _ => none

/-- Whether a meaning ends with ERR = `e`. -/
def endsWith (e : ErrKind) : Host.Outcome State Fault Refusal → Bool
  | .next t => t.status.err == e
  | .fault _ => false
  | .refused _ => false

theorem endsWith_next {e : ErrKind} {o : Host.Outcome State Fault Refusal} (h : endsWith e o = true) :
    ∃ t, o = .next t ∧ t.status.err = e := by
  cases o with
  | next t => exact ⟨t, rfl, by simpa [endsWith] using h⟩
  | fault f => cases h
  | refused r => cases h

/-! ## Parameters: one ill-formed term for each check of `admissible` (R5, R161, R162); `Instr.wellFormed` has nothing to
refuse, since no command carries an operand. -/

theorem test_admits_defaults : admissible defaultParams = true := admissible_defaultParams

theorem test_refuses_blockBase : admissible { defaultParams with blockBase := 0x2000 } = false := by decide +kernel

theorem test_refuses_bufBytes_multiple : admissible { defaultParams with bufBytes := 10 } = false := by decide +kernel

theorem test_refuses_bufBytes_small : admissible { defaultParams with bufBytes := 4 } = false := by decide +kernel

theorem test_refuses_bufBytes_large : admissible { defaultParams with bufBytes := 4100 } = false := by decide +kernel

theorem test_refuses_centuryPivot : admissible { defaultParams with centuryPivot := 101 } = false := by decide +kernel

theorem test_refuses_tzQhMax : admissible { defaultParams with tzQhMax := 80 } = false := by decide +kernel

theorem test_refuses_defDec_length : admissible { defaultParams with defDec := refDefDec.take 127 } = false := by
  decide +kernel

theorem test_refuses_extDec_length : admissible { defaultParams with extDec := refExtDec ++ [none] } = false := by
  decide +kernel

theorem test_refuses_defDec_range : admissible { defaultParams with defDec := refDefDec.set 0 (some 0x110000) } = false := by
  decide +kernel

theorem test_refuses_extDec_range : admissible { defaultParams with extDec := refExtDec.set 0 (some 0x110000) } = false := by
  decide +kernel

theorem test_refuses_line_feed : admissible { defaultParams with defDec := refDefDec.set 0x0A none } = false := by
  decide +kernel

theorem test_refuses_carriage_return : admissible { defaultParams with defDec := refDefDec.set 0x0D none } = false := by
  decide +kernel

theorem test_refuses_escape : admissible { defaultParams with defDec := refDefDec.set 0x1B (some 0x20AC) } = false := by
  decide +kernel

theorem test_refuses_space : admissible { defaultParams with defDec := refDefDec.set 0x20 none } = false := by decide +kernel

/-- Code 0x01 given the code point of code 0x00. -/
theorem test_refuses_not_injective : admissible { defaultParams with defDec := refDefDec.set 1 (some 0x40) } = false := by
  decide +kernel

/-- The limits of R5 are legal: BUF_BYTES 8 and 4096, CENTURY_PIVOT 0 and 100, TZ_QH_MAX 0. -/
theorem test_admits_limits :
    admissible { defaultParams with blockBase := 0x4000, bufBytes := 8, centuryPivot := 0, tzQhMax := 0 } = true ∧
      admissible { defaultParams with bufBytes := 4096, centuryPivot := 100 } = true := by decide +kernel

/-! ## Decoding: the words of R70 and R72 bit by bit, RSV in [31:4], OP in [3:0] -/

theorem test_decode_denc : decode 0b0000000000000000000000000000_0001#32 = .ok .denc := by decide

theorem test_decode_ddec : decode 0b0000000000000000000000000000_0010#32 = .ok .ddec := by decide

theorem test_decode_tsenc : decode 0b0000000000000000000000000000_0011#32 = .ok .tsenc := by decide

theorem test_decode_tsdec : decode 0b0000000000000000000000000000_0100#32 = .ok .tsdec := by decide

theorem test_decode_csdd : decode 0b0000000000000000000000000000_0101#32 = .ok .csdd := by decide

theorem test_decode_csde : decode 0b0000000000000000000000000000_0110#32 = .ok .csde := by decide

theorem test_decode_csed : decode 0b0000000000000000000000000000_0111#32 = .ok .csed := by decide

theorem test_decode_csee : decode 0b0000000000000000000000000000_1000#32 = .ok .csee := by decide

/-- V130 to V132. -/
theorem test_decode_unassigned : decode 0x00000000 = .error .unassignedOp ∧ decode 0x00000009 = .error .unassignedOp ∧
    decode 0x0000000F = .error .unassignedOp := by decide

/-- V133, V134. -/
theorem test_decode_reserved :
    decode 0x00000011 = .error .reservedBits ∧ decode 0x80000003 = .error .reservedBits := by decide

theorem test_decodeTableWord : decodeTableWord 32 0x4 = some .tsdec ∧ decodeTableWord 32 0x14 = none := by decide

/-! ## Commands -/

/-- V12: "12345". -/
theorem test_denc_odd : result (exec .denc (loaded [0x31, 0x32, 0x33, 0x34, 0x35] 0)) =
    some ⟨.ok, 0, 3, 5, [(0, 0x21), (1, 0x43), (2, 0xF5)]⟩ := by decide +kernel

/-- V21: "1A2B", the lowest bad index. -/
theorem test_denc_invalid_digit : result (exec .denc (loaded [0x31, 0x41, 0x32, 0x42] 0)) =
    some ⟨.invalidDigit, 0x41, 0, 0, []⟩ := by decide +kernel

/-- V2: the odd limit of the source's scenario, 3 bytes consumed. -/
theorem test_ddec_odd_limit : result (exec .ddec (loaded [0x10, 0x32, 0x54, 0x76] 5)) =
    some ⟨.ok, 0, 5, 3, [(0, 0x30), (1, 0x31), (2, 0x32), (3, 0x33), (4, 0x34)]⟩ := by decide +kernel

/-- V41 and V42: a fill above the first of two bytes, reached at limit 2 and not at limit 1. -/
theorem test_ddec_fill : result (exec .ddec (loaded [0xF1, 0x32] 2)) = some ⟨.missingFill, 0xF1, 0, 0, []⟩ ∧
    result (exec .ddec (loaded [0xF1, 0x32] 1)) = some ⟨.ok, 0, 1, 1, [(0, 0x31)]⟩ := by decide +kernel

/-- V1: 1999-12-31T23:59:59-00:15. -/
theorem test_tsenc_source_example : result (exec .tsenc (stamped ⟨1999, 12, 31, 23, 59, 59, 0xFFF1⟩)) =
    some ⟨.ok, 0, 7, 0, [(0, 0x99), (1, 0x21), (2, 0x13), (3, 0x32), (4, 0x95), (5, 0x95), (6, 0x18)]⟩ := by
  decide +kernel

/-- V70: +1200 minutes, and V72: the month's error before the offset's. -/
theorem test_tsenc_first_error : result (exec .tsenc (stamped ⟨2024, 1, 1, 0, 0, 0, 1200⟩)) =
      some ⟨.invalidInteger, 80, 0, 0, []⟩ ∧
    result (exec .tsenc (stamped ⟨2024, 100, 1, 0, 0, 0, 1440⟩)) = some ⟨.invalidInteger, 100, 0, 0, []⟩ := by
  decide +kernel

/-- V83: 2069, -1185 minutes. -/
theorem test_tsdec_negative : stamp (exec .tsdec (loaded [0x96, 0x21, 0x13, 0x32, 0x95, 0x95, 0x9F] 0)) =
    some (.ok, 0, ⟨2069, 12, 31, 23, 59, 59, 0xFB5F⟩) := by decide +kernel

/-- V89: the sign is masked off the reported octet; V94: six bytes. -/
theorem test_tsdec_errors :
    stamp (exec .tsdec (loaded [0x42, 0x20, 0x92, 0x21, 0x00, 0x00, 0xA8] 0)) = some (.invalidOctet, 0xA0, TsRegs.zero) ∧
      stamp (exec .tsdec (loaded [0x99, 0x21, 0x13, 0x32, 0x95, 0x95] 0)) = some (.underflow, 6, TsRegs.zero) := by
  decide +kernel

/-- V105. -/
theorem test_csdd_code : answer (exec .csdd (asked 0x24)) = some (.ok, 0, 0xA4) := by decide +kernel

/-- V108: no masking to seven bits. -/
theorem test_csdd_not_decodable : answer (exec .csdd (asked 0xFFFFFFFF)) = some (.notDecodable, 0xFFFFFFFF, 0) := by
  decide +kernel

/-- V109. -/
theorem test_csde_code : answer (exec .csde (asked 0x65)) = some (.ok, 0, 0x20AC) := by decide +kernel

/-- V111. -/
theorem test_csde_not_decodable : answer (exec .csde (asked 0)) = some (.notDecodable, 0, 0) := by decide +kernel

/-- V115. -/
theorem test_csed_code : answer (exec .csed (asked 0x24)) = some (.ok, 0, 0x02) := by decide +kernel

/-- V118: the code point is in the extension table only. -/
theorem test_csed_not_encodable : answer (exec .csed (asked 0x20AC)) = some (.notEncodable, 0x20AC, 0) := by
  decide +kernel

/-- V100: codes 0x05 and 0x40 both decode to U+007C; the smaller one is answered. -/
theorem test_csee_lowest_code : answer (exec .csee { asked 0x7C with
    params := { defaultParams with extDec := refExtDec.set 5 (some 0x7C) } }) = some (.ok, 0, 0x05) := by decide +kernel

/-- V124: the code point is in the default table only. -/
theorem test_csee_not_encodable : answer (exec .csee (asked 0x40)) = some (.notEncodable, 0x40, 0) := by decide +kernel

/-! ## Steps -/

/-- V74 as the first command after reset: TSENC of the reset values. -/
theorem test_step_runs_word : result (step (State.reset.withFetchWord 32 3)) =
    some ⟨.ok, 0, 7, 0, [(0, 0), (1, 0), (2, 0), (3, 0), (4, 0), (5, 0), (6, 0)]⟩ := by decide +kernel

/-- V133: ILLEGAL_COMMAND(0x11). -/
theorem test_step_illegal_word : result (step (State.reset.withFetchWord 32 0x11)) =
    some ⟨.illegalCommand, 0x11, 0, 0, []⟩ := by decide +kernel

/-- CONFIG at the default parameters (R29): TZ_QH_MAX 79, CENTURY_PIVOT 70, BUF_BYTES 256. -/
theorem test_config_word : configWord defaultParams = 0x4F460100 := by decide +kernel

/-- V83's note: TS_OFFSET reads sign-extended. -/
theorem test_tsOffset_reads_signed : readRegister .tsOffset (stamped ⟨0, 0, 0, 0, 0, 0, 0xFB5F⟩) = 0xFFFFFB5F := by
  decide +kernel

/-- R83's expansion of LDSRC, five bytes: two words, the second filled with 0x00. -/
theorem test_ldsrc_words : hostLdsrc 0 [0x31, 0x32, 0x33, 0x34, 0x35] =
    [.access (.write 4 0x1000 0x34333231), .access (.write 4 0x1004 0x00000035)] := by decide +kernel

/-- R83: POLL reads STATUS, RDDST of five bytes reads two words, CMD writes the command word. -/
theorem test_notation : hostPoll 0 = [.access (.read 4 4)] ∧
    hostRddst 0 5 = [.access (.read 4 0x2000), .access (.read 4 0x2004)] ∧
    hostCmd 0 .csee = [.access (.write 4 0 8)] := by decide +kernel

/-! ## Witnesses: the hypotheses of every obligation that has some, met together -/

/-- The hypotheses shared by the statements on one access: parameters and the head of the list. -/
theorem facing_admissible (es : List HostEvent) : admissible (facing es).params = true := admissible_defaultParams

/-- A CMD write completes. -/
theorem facing_cmd (w : Word) : ∃ t, step (facing [.access (.write 4 0 w)]) = .next t := by
  obtain ⟨t, ht, -⟩ := runCommand_effect w (acceptEvent [] (facing [.access (.write 4 0 w)]))
  exact ⟨t, (step_cmd (s := facing [.access (.write 4 0 w)]) (facing_admissible _) rfl).trans ht⟩

/-- IllegalWordRaisesIllegalCommand: each clause at its boundary values. -/
theorem witness_IllegalWord : ∀ w ∈ [(0x10 : Word), 0xFFFFFFF1, 0x0, 0x9, 0xF], ∃ (s : State) (rest : List HostEvent),
    admissible s.params = true ∧ s.pending = .access (.write 4 s.params.blockBase w) :: rest ∧
      (w.toNat / 16 ≠ 0 ∨ w.toNat % 16 = 0 ∨ 9 ≤ w.toNat % 16) := by
  intro w hw
  refine ⟨facing [.access (.write 4 0 w)], [], admissible_defaultParams, rfl, ?_⟩
  simp only [List.mem_cons, List.not_mem_nil, or_false] at hw
  rcases hw with rfl | rfl | rfl | rfl | rfl <;> decide

/-- CmdWriteRunsDecodedCommand: every command. -/
theorem witness_CmdWrite (i : Instr) : ∃ (s : State) (w : Word) (rest : List HostEvent), admissible s.params = true ∧
    s.pending = .access (.write 4 s.params.blockBase w) :: rest ∧ decode w = .ok i :=
  ⟨facing [.access (.write 4 0 (encode i))], encode i, [], admissible_defaultParams, rfl, by cases i <;> decide⟩

theorem witness_IdleStep : ∃ s : State, admissible s.params = true ∧ s.pending = [] :=
  ⟨State.reset, admissible_defaultParams, rfl⟩

theorem witness_InadmissibleParameters : ∃ s : State, admissible s.params = false :=
  ⟨{ State.reset with params := { defaultParams with tzQhMax := 80 } }, test_refuses_tzQhMax⟩

/-- StepKeepsInvariant and StepKeepsParameters: a state with the invariant and a command to run. -/
theorem witness_Invariant : ∃ s t : State, s.Inv ∧ step s = .next t := by
  obtain ⟨t, ht⟩ := facing_cmd 0x1
  exact ⟨facing [.access (.write 4 0 0x1)], t,
    ⟨admissible_defaultParams, ⟨rfl, rfl⟩, ⟨rfl, rfl⟩, Nat.zero_le _, Nat.zero_le _, Nat.zero_le _, fun _ => rfl,
      fun _ => ⟨rfl, rfl⟩, fun _ => ⟨rfl, rfl, rfl, rfl⟩⟩, ht⟩

/-- ResetMeetsInvariant and ResetRegisterReads' parameters. -/
theorem witness_Params : ∃ p : Params, admissible p = true := ⟨defaultParams, admissible_defaultParams⟩

/-- CommandsNeverWriteSource: a legal and an illegal word. -/
theorem witness_CommandsNeverWriteSource : ∀ w ∈ [(0x3 : Word), 0x0], ∃ (s t : State) (rest : List HostEvent),
    s.pending = .access (.write 4 s.params.blockBase w) :: rest ∧ step s = .next t := by
  intro w _
  obtain ⟨t, ht⟩ := facing_cmd w
  exact ⟨facing [.access (.write 4 0 w)], t, [], rfl, ht⟩

/-- ResetEventClearsRegisters: alone, and with a coincident access. -/
theorem witness_ResetEvent : ∀ lost ∈ [none, some (HostAccess.write 4 0 0x1)], ∃ (s : State) (rest : List HostEvent),
    admissible s.params = true ∧ s.pending = .reset lost :: rest :=
  fun lost _ => ⟨facing [.reset lost], [], admissible_defaultParams, rfl⟩

/-- ResetRegisterReads: its clause on the registers other than CONFIG. -/
theorem witness_ResetRegister : RegName.cmd ≠ .config := by decide

/-- RegisterReads: every offset of its list. -/
theorem witness_RegisterReads : ∀ off ∈ [0x000, 0x004, 0x008, 0x00C, 0x010, 0x014, 0x018, 0x01C, 0x020, 0x024, 0x028,
      0x02C, 0x030, 0x034, 0x038, 0x040, 0x044],
    ∃ (s : State) (rest : List HostEvent) (v : Word), admissible s.params = true ∧
      s.pending = .access (.read 4 (s.params.blockBase + off)) :: rest ∧
      (off, v) ∈ [(0x000, 0), (0x004, (if s.status.done then 0x100 else 0) + s.status.err.code.setWidth 32),
        (0x008, s.errVal), (0x00C, s.srcLen), (0x010, s.dstLim), (0x014, s.outLen), (0x018, s.consumed),
        (0x01C, BitVec.ofNat 32 (s.params.bufBytes + 0x10000 * s.params.centuryPivot + 0x1000000 * s.params.tzQhMax)),
        (0x020, s.ts.year.setWidth 32), (0x024, s.ts.month.setWidth 32), (0x028, s.ts.day.setWidth 32),
        (0x02C, s.ts.hour.setWidth 32), (0x030, s.ts.minute.setWidth 32), (0x034, s.ts.second.setWidth 32),
        (0x038, s.ts.offset.signExtend 32), (0x040, s.csIn), (0x044, s.csOut.setWidth 32)] := by
  intro off h
  refine ⟨facing [.access (.read 4 (0 + off))], [], ?_⟩
  simp only [List.mem_cons, List.not_mem_nil, or_false] at h
  rcases h with rfl | rfl | rfl | rfl | rfl | rfl | rfl | rfl | rfl | rfl | rfl | rfl | rfl | rfl | rfl | rfl | rfl <;>
    exact ⟨_, admissible_defaultParams, rfl, by simp; rfl⟩

/-- RegisterWrites: every offset of its list. -/
theorem witness_RegisterWrites : ∀ off ∈ [0x00C, 0x010, 0x020, 0x024, 0x028, 0x02C, 0x030, 0x034, 0x038, 0x040],
    ∃ (s t : State) (rest : List HostEvent) (w : Word), admissible s.params = true ∧
      s.pending = .access (.write 4 (s.params.blockBase + off) w) :: rest ∧
      (off, t) ∈ [(0x00C, { s with srcLen := w }), (0x010, { s with dstLim := w }),
        (0x020, { s with ts := { s.ts with year := w.setWidth 16 } }),
        (0x024, { s with ts := { s.ts with month := w.setWidth 8 } }),
        (0x028, { s with ts := { s.ts with day := w.setWidth 8 } }),
        (0x02C, { s with ts := { s.ts with hour := w.setWidth 8 } }),
        (0x030, { s with ts := { s.ts with minute := w.setWidth 8 } }),
        (0x034, { s with ts := { s.ts with second := w.setWidth 8 } }),
        (0x038, { s with ts := { s.ts with offset := w.setWidth 16 } }), (0x040, { s with csIn := w })] := by
  intro off h
  simp only [List.mem_cons, List.not_mem_nil, or_false] at h
  rcases h with rfl | rfl | rfl | rfl | rfl | rfl | rfl | rfl | rfl | rfl <;>
    exact ⟨facing [.access (.write 4 (0 + _) 0xFFFFFFFF)], _, [], 0xFFFFFFFF, admissible_defaultParams, rfl, by simp; rfl⟩

/-- ReadOnlyWritesIgnored: every offset of its list. -/
theorem witness_ReadOnlyWrites : ∀ off ∈ [0x004, 0x008, 0x014, 0x018, 0x01C, 0x044],
    ∃ (s : State) (rest : List HostEvent) (w : Word), admissible s.params = true ∧
      s.pending = .access (.write 4 (s.params.blockBase + off) w) :: rest ∧
      off ∈ [0x004, 0x008, 0x014, 0x018, 0x01C, 0x044] :=
  fun off h => ⟨facing [.access (.write 4 (0 + off) 0xFFFFFFFF)], [], 0xFFFFFFFF, admissible_defaultParams, rfl, h⟩

/-- UnusedOffsetsReadZeroIgnoreWrites: the ends of every range, at BUF_BYTES = 256, read and written. -/
theorem witness_UnusedOffsets : ∀ off ∈ [0x03C, 0x048, 0x0FC, 0x100, 0xFFC, 0x1100, 0x1FFC, 0x2100, 0x2FFC, 0x3000, 0x3FFC],
    ∃ (s u : State) (rest : List HostEvent) (w : Word), admissible s.params = true ∧ admissible u.params = true ∧
      off % 4 = 0 ∧ s.params = u.params ∧
      (off < 0x100 ∧ off ∉ [0x000, 0x004, 0x008, 0x00C, 0x010, 0x014, 0x018, 0x01C, 0x020, 0x024, 0x028, 0x02C, 0x030,
          0x034, 0x038, 0x040, 0x044] ∨
        (0x100 ≤ off ∧ off < 0x1000) ∨ (0x1000 + s.params.bufBytes ≤ off ∧ off < 0x2000) ∨
        (0x2000 + s.params.bufBytes ≤ off ∧ off < 0x3000) ∨ (0x3000 ≤ off ∧ off < 0x4000)) ∧
      s.pending = .access (.read 4 (s.params.blockBase + off)) :: rest ∧
      u.pending = .access (.write 4 (u.params.blockBase + off) w) :: rest := by
  intro off h
  refine ⟨facing [.access (.read 4 (0 + off))], facing [.access (.write 4 (0 + off) 1)], [], 1,
    admissible_defaultParams, admissible_defaultParams, ?_, rfl, ?_, rfl, rfl⟩
  · revert off; decide
  · show off < 0x100 ∧ _ ∨ _ ∨ (0x1000 + 256 ≤ off ∧ _) ∨ (0x2000 + 256 ≤ off ∧ _) ∨ _
    revert off; decide

/-- SourceWindowWords, DestinationWindowWords and BufferWordReadsBack: the first and the last word of each buffer, read,
written, and written then read. -/
theorem witness_BufferWords : ∀ k ∈ [0, 63], ∀ base ∈ [0x1000, 0x2000], ∃ (s u v : State) (rest : List HostEvent) (w : Word),
    (admissible s.params = true ∧ admissible u.params = true ∧ admissible v.params = true) ∧
    (4 * k < s.params.bufBytes ∧ 4 * k < u.params.bufBytes ∧ 4 * k < v.params.bufBytes) ∧
    (base = 0x1000 ∨ base = 0x2000) ∧
    s.pending = .access (.read 4 (s.params.blockBase + (base + 4 * k))) :: rest ∧
    u.pending = .access (.write 4 (u.params.blockBase + (base + 4 * k)) w) :: rest ∧
    v.pending = .access (.write 4 (v.params.blockBase + (base + 4 * k)) w) ::
      .access (.read 4 (v.params.blockBase + (base + 4 * k))) :: rest := by
  intro k hk base hb
  refine ⟨facing [.access (.read 4 (0 + (base + 4 * k)))], facing [.access (.write 4 (0 + (base + 4 * k)) 1)],
    facing [.access (.write 4 (0 + (base + 4 * k)) 1), .access (.read 4 (0 + (base + 4 * k)))], [], 1,
    ⟨admissible_defaultParams, admissible_defaultParams, admissible_defaultParams⟩, ?_, ?_, rfl, rfl, rfl⟩
  · show 4 * k < 256 ∧ 4 * k < 256 ∧ 4 * k < 256
    simp only [List.mem_cons, List.not_mem_nil, or_false] at hk
    omega
  · simpa using hb

/-- UnsupportedAccessFaults: a wrong width, a wrong offset at both ends, and a fetch. -/
theorem witness_UnsupportedAccess : ∀ a ∈ [HostAccess.read 1 0, .write 8 0 1, .read 4 2, .write 4 0x3FFF 1, .fetch 0,
      .fetch 0x3FFC],
    ∃ (s : State) (rest : List HostEvent) (off size : Nat) (w : Word), admissible s.params = true ∧ off < 0x4000 ∧
      s.pending = .access a :: rest ∧
      ((size ≠ 4 ∨ off % 4 ≠ 0) ∧
          (a = .read size (s.params.blockBase + off) ∨ a = .write size (s.params.blockBase + off) w) ∨
        a = .fetch (s.params.blockBase + off)) := by
  intro a h
  simp only [List.mem_cons, List.not_mem_nil, or_false] at h
  rcases h with rfl | rfl | rfl | rfl | rfl | rfl
  · exact ⟨facing [.access _], [], 0, 1, 0, admissible_defaultParams, by decide, rfl, .inl ⟨by decide, .inl rfl⟩⟩
  · exact ⟨facing [.access _], [], 0, 8, 1, admissible_defaultParams, by decide, rfl, .inl ⟨by decide, .inr rfl⟩⟩
  · exact ⟨facing [.access _], [], 2, 4, 0, admissible_defaultParams, by decide, rfl, .inl ⟨by decide, .inl rfl⟩⟩
  · exact ⟨facing [.access _], [], 0x3FFF, 4, 1, admissible_defaultParams, by decide, rfl, .inl ⟨by decide, .inr rfl⟩⟩
  · exact ⟨facing [.access _], [], 0, 4, 0, admissible_defaultParams, by decide, rfl, .inr rfl⟩
  · exact ⟨facing [.access _], [], 0x3FFC, 4, 0, admissible_defaultParams, by decide, rfl, .inr rfl⟩

/-- AccessOutsideWindowFaults: just below a window at 0x4000 and just above it. -/
theorem witness_AccessOutside : ∀ addr ∈ [0x3FFC, 0x8000], ∃ (s : State) (a : HostAccess) (rest : List HostEvent),
    admissible s.params = true ∧ s.pending = .access a :: rest ∧
      (addr < s.params.blockBase ∨ s.params.blockBase + 0x4000 ≤ addr) ∧ a = .read 4 addr := by
  intro addr h
  refine ⟨{ State.reset with
    params := { defaultParams with blockBase := 0x4000 }, pending := [.access (.read 4 addr)] }, _, [], ?_, rfl, ?_, rfl⟩
  · exact (by decide +kernel : admissible { defaultParams with blockBase := 0x4000 } = true)
  · show addr < 0x4000 ∨ 0x4000 + 0x4000 ≤ addr
    revert addr; decide

theorem witness_ReadsChangeNothing : ∃ (s t : State) (rest : List HostEvent) (size addr : Nat),
    s.pending = .access (.read size addr) :: rest ∧ step s = .next t :=
  ⟨facing [.access (.read 4 (0 + 0x044))], _, [], 4, 0 + 0x044, rfl,
    step_read (off := 0x044) admissible_defaultParams (by decide) rfl rfl⟩

/-- PollAfterCommandShowsDone: a command, an illegal word. -/
theorem witness_Poll : ∀ w ∈ [(0x1 : Word), 0x0], ∃ (s : State) (rest : List HostEvent), admissible s.params = true ∧
    s.pending = .access (.write 4 s.params.blockBase w) :: .access (.read 4 (s.params.blockBase + 0x004)) :: rest :=
  fun w _ => ⟨facing [.access (.write 4 0 w), .access (.read 4 (0 + 0x004))], [], admissible_defaultParams, rfl⟩

/-- LdsrcLoadsSource: no byte, five bytes, and a full buffer of zeros. -/
theorem witness_Ldsrc : ∀ bs ∈ [[], [(0x31 : Byte), 0x32, 0x33, 0x34, 0x35], List.replicate 256 0], ∃ (s : State)
    (rest : List HostEvent), admissible s.params = true ∧ bs.length ≤ s.params.bufBytes ∧
      s.pending = hostLdsrc s.params.blockBase bs ++ rest := by
  intro bs h
  refine ⟨facing (hostLdsrc 0 bs ++ []), [], admissible_defaultParams, ?_, rfl⟩
  show bs.length ≤ 256
  simp only [List.mem_cons, List.not_mem_nil, or_false] at h
  rcases h with rfl | rfl | rfl
  · decide
  · decide
  · rw [List.length_replicate]

/-- ErrorsAreAllOrNothing and ErrorKindsByCommand: an error of every command (V21, V40, V72, V89, V108, V111, V118,
V124). -/
theorem witness_Errors : ∀ i : Instr, ∃ s t : State, exec i s = .next t ∧ t.status.err ≠ .ok := by
  have key : ∀ {i : Instr} {s : State} {e : ErrKind}, endsWith e (exec i s) = true → e ≠ .ok →
      ∃ s t : State, exec i s = .next t ∧ t.status.err ≠ .ok := fun h he =>
    let ⟨t, ht, hs⟩ := endsWith_next h
    ⟨_, t, ht, by rw [hs]; exact he⟩
  intro i
  cases i with
  | denc => exact key (s := loaded [0x31, 0x41, 0x32, 0x42] 0) (e := .invalidDigit) (by decide +kernel) (by decide)
  | ddec => exact key (s := loaded [0xF1, 0x32] 8) (e := .missingFill) (by decide +kernel) (by decide)
  | tsenc => exact key (s := stamped ⟨2024, 100, 1, 0, 0, 0, 1440⟩) (e := .invalidInteger) (by decide +kernel) (by decide)
  | tsdec =>
    exact key (s := loaded [0x42, 0x20, 0x92, 0x21, 0x00, 0x00, 0xA8] 0) (e := .invalidOctet) (by decide +kernel) (by decide)
  | csdd => exact key (s := asked 0xFFFFFFFF) (e := .notDecodable) (by decide +kernel) (by decide)
  | csde => exact key (s := asked 0) (e := .notDecodable) (by decide +kernel) (by decide)
  | csed => exact key (s := asked 0x20AC) (e := .notEncodable) (by decide +kernel) (by decide)
  | csee => exact key (s := asked 0x40) (e := .notEncodable) (by decide +kernel) (by decide)

/-- CommandsAlwaysComplete's clause on `ok`, and StoringCommandsFrame, NonStoringCommandsFrame: a success of every command
(V12, V30, V1, V80, V104, V109, V115, V120). -/
theorem witness_Successes : ∀ i : Instr, ∃ s t : State, admissible s.params = true ∧ exec i s = .next t ∧
    t.status.err = .ok := by
  have key : ∀ {i : Instr} {s : State}, s.params = defaultParams → endsWith .ok (exec i s) = true →
      ∃ s t : State, admissible s.params = true ∧ exec i s = .next t ∧ t.status.err = .ok := fun {i s} hp h =>
    let ⟨t, ht, hs⟩ := endsWith_next h
    ⟨s, t, by rw [hp]; exact admissible_defaultParams, ht, hs⟩
  intro i
  cases i with
  | denc => exact key (s := loaded [0x31, 0x32, 0x33, 0x34, 0x35] 0) rfl (by decide +kernel)
  | ddec => exact key (s := loaded [0x10, 0x32, 0x54, 0x76] 8) rfl (by decide +kernel)
  | tsenc => exact key (s := stamped ⟨1999, 12, 31, 23, 59, 59, 0xFFF1⟩) rfl (by decide +kernel)
  | tsdec => exact key (s := loaded [0x42, 0x20, 0x92, 0x21, 0x00, 0x00, 0x40] 0) rfl (by decide +kernel)
  | csdd => exact key (s := asked 0x20) rfl (by decide +kernel)
  | csde => exact key (s := asked 0x65) rfl (by decide +kernel)
  | csed => exact key (s := asked 0x24) rfl (by decide +kernel)
  | csee => exact key (s := asked 0x20AC) rfl (by decide +kernel)

/-- CommandsReadOnlyTheirOperands: for every command two different states that agree on its operands, and their next
states. -/
theorem witness_CommandsReadOnlyTheirOperands : ∀ i : Instr, ∃ s u s' u' : State, s ≠ u ∧ u.params = s.params ∧
    exec i s = .next s' ∧ exec i u = .next u' ∧
    (match i with
      | .denc => u.srcLen = s.srcLen ∧ ∀ k, k < s.srcLen.toNat → u.srcByte k = s.srcByte k
      | .ddec => u.srcLen = s.srcLen ∧ u.dstLim = s.dstLim ∧ ∀ k, k < s.srcLen.toNat → u.srcByte k = s.srcByte k
      | .tsenc => u.ts = s.ts
      | .tsdec => u.srcLen = s.srcLen ∧ ∀ k, k < 7 → u.srcByte k = s.srcByte k
      | .csdd => u.csIn = s.csIn
      | .csde => u.csIn = s.csIn
      | .csed => u.csIn = s.csIn
      | .csee => u.csIn = s.csIn) := by
  intro i
  obtain ⟨s', hs, -⟩ := exec_effect i (loaded [0x21] 2)
  obtain ⟨u', hu, -⟩ := exec_effect i { loaded [0x21] 2 with errVal := 1, dstBuf := [(0, 0)] }
  refine ⟨loaded [0x21] 2, { loaded [0x21] 2 with errVal := 1, dstBuf := [(0, 0)] }, s', u', fun h => ?_, rfl, hs, hu, ?_⟩
  · exact absurd (congrArg State.errVal h) (by decide)
  · cases i <;> first | rfl | exact ⟨rfl, fun _ _ => rfl⟩ | exact ⟨rfl, rfl, fun _ _ => rfl⟩

/-- BadLengthReports, and the length clauses of DencMeaning, DdecMeaning and TsdecMeaning: SRC_LEN = 257 (V23, V96), and
DST_LIM = 257 at SRC_LEN = 256 (V51). -/
theorem witness_BadLength : ∃ s u : State, s.params.bufBytes < s.srcLen.toNat ∧ u.srcLen.toNat ≤ u.params.bufBytes ∧
    u.params.bufBytes < u.dstLim.toNat :=
  ⟨{ State.reset with srcLen := 257 }, { State.reset with srcLen := 256, dstLim := 257 }, by decide, by decide, by decide⟩

/-- DencMeaning's second clause (V21) and its third, at an odd length, an even one and none (V12, V15, V10). -/
theorem witness_Denc : (∃ (s : State) (i : Nat), s.srcLen.toNat ≤ s.params.bufBytes ∧ i < s.srcLen.toNat ∧
      nibOf (s.srcByte i) = none ∧ ∀ j, j < i → nibOf (s.srcByte j) ≠ none) ∧
    ∀ bs ∈ [[], [(0x31 : Byte), 0x32], [0x31, 0x32, 0x33, 0x34, 0x35]], ∃ (s : State) (d : Nat → Nibble),
      s.srcLen.toNat = bs.length ∧ s.srcLen.toNat ≤ s.params.bufBytes ∧
        ∀ i, i < s.srcLen.toNat → nibOf (s.srcByte i) = some (d i) := by
  refine ⟨⟨loaded [0x31, 0x41, 0x32, 0x42] 0, 1, by decide, by decide, by decide, by decide⟩, ?_⟩
  intro bs h
  refine ⟨loaded bs 0, fun i => BitVec.ofNat 4 (i + 1), ?_⟩
  simp only [List.mem_cons, List.not_mem_nil, or_false] at h
  rcases h with rfl | rfl | rfl <;> exact ⟨by decide, by decide, by decide⟩

/-- DencFillPlacement: an accepted string of odd and one of even length (V12, V11). -/
theorem witness_DencFill : (∃ s t : State, exec .denc s = .next t ∧ t.status.err = .ok ∧ s.srcLen.toNat = 2 * 2 + 1) ∧
    ∃ s t : State, exec .denc s = .next t ∧ t.status.err = .ok ∧ 0 < s.srcLen.toNat / 2 :=
  ⟨(endsWith_next (o := exec .denc (loaded [0x31, 0x32, 0x33, 0x34, 0x35] 0)) (e := .ok) (by decide +kernel)).elim
      fun t h => ⟨_, t, h.1, h.2, by decide⟩,
    (endsWith_next (o := exec .denc (loaded [0x30, 0x31, 0x32, 0x33] 0)) (e := .ok) (by decide +kernel)).elim
      fun t h => ⟨_, t, h.1, h.2, by decide⟩⟩

/-- DdecMeaning's third clause, a fill in a high and in a low nibble (V41, V45), and its fourth, with a limit that cuts and
one that does not (V2, V35). -/
theorem witness_Ddec : (∃ (s : State) (j : Nat), s.srcLen.toNat ≤ s.params.bufBytes ∧ s.dstLim.toNat ≤ s.params.bufBytes ∧
      j < min s.dstLim.toNat (decodableLength s) ∧ srcNibble s j = fill ∧ j % 2 = 1 ∧ ∀ i, i < j → srcNibble s i ≠ fill) ∧
    (∃ (s : State) (j : Nat), s.srcLen.toNat ≤ s.params.bufBytes ∧ s.dstLim.toNat ≤ s.params.bufBytes ∧
      j < min s.dstLim.toNat (decodableLength s) ∧ srcNibble s j = fill ∧ j % 2 = 0 ∧ ∀ i, i < j → srcNibble s i ≠ fill) ∧
    (∃ s : State, s.srcLen.toNat ≤ s.params.bufBytes ∧ s.dstLim.toNat ≤ s.params.bufBytes ∧
      s.dstLim.toNat < decodableLength s ∧ ∀ j, j < min s.dstLim.toNat (decodableLength s) → srcNibble s j ≠ fill) ∧
    ∃ s : State, s.srcLen.toNat ≤ s.params.bufBytes ∧ s.dstLim.toNat ≤ s.params.bufBytes ∧
      decodableLength s < s.dstLim.toNat ∧ ∀ j, j < min s.dstLim.toNat (decodableLength s) → srcNibble s j ≠ fill :=
  ⟨⟨loaded [0xF1, 0x32] 2, 1, by decide, by decide, by decide, by decide, by decide, by decide⟩,
   ⟨loaded [0x1F] 8, 0, by decide, by decide, by decide, by decide, by decide, by decide⟩,
   ⟨loaded [0x10, 0x32, 0x54, 0x76] 5, by decide, by decide, by decide, by decide⟩,
   ⟨loaded [0x21, 0x43, 0xF5] 6, by decide, by decide, by decide, by decide⟩⟩

/-- DdecConsumedIsHalfOfOutLen and PackedBufferRoundTrip: V35's buffer with limit 6, and its digits given back. -/
theorem witness_PackedBuffer : ∃ s t u : State, admissible s.params = true ∧ 2 * s.srcLen.toNat ≤ s.dstLim.toNat ∧
    exec .ddec s = .next t ∧ t.status.err = .ok ∧ u.params = s.params ∧ u.srcLen = t.outLen ∧
    ∀ k, k < t.outLen.toNat → u.srcByte k = t.dstByte k :=
  ⟨loaded [0x21, 0x43, 0xF5] 6, _, loaded [0x31, 0x32, 0x33, 0x34, 0x35] 0, admissible_defaultParams, by decide, rfl,
    rfl, rfl, by decide +kernel, by decide +kernel⟩

/-- DigitStringRoundTrip: V53. -/
theorem witness_DigitString : ∃ s t u : State, s.srcLen.toNat ≤ s.params.bufBytes ∧
    (∀ i, i < s.srcLen.toNat → nibOf (s.srcByte i) ≠ none) ∧ exec .denc s = .next t ∧ u.params = s.params ∧
    u.srcLen = t.outLen ∧ s.srcLen.toNat ≤ u.dstLim.toNat ∧ u.dstLim.toNat ≤ u.params.bufBytes ∧
    ∀ k, k < t.outLen.toNat → u.srcByte k = t.dstByte k :=
  ⟨loaded [0x31, 0x32, 0x33, 0x34, 0x35] 0, _, loaded [0x21, 0x43, 0xF5] 5, by decide, by decide, rfl, rfl,
    by decide +kernel, by decide, by decide, by decide +kernel⟩

/-- EvenLimitResumptionLosesNothing: V32's decode, the rest of its buffer, and V30's. -/
theorem witness_EvenLimit : ∃ s t u v w : State, admissible s.params = true ∧ s.dstLim.toNat % 2 = 0 ∧
    exec .ddec s = .next t ∧ t.status.err = .ok ∧ u.params = s.params ∧
    u.srcLen.toNat = s.srcLen.toNat - t.consumed.toNat ∧
    (∀ i, i < u.srcLen.toNat → u.srcByte i = s.srcByte (t.consumed.toNat + i)) ∧
    exec .ddec u = .next v ∧ v.status.err = .ok ∧ w.params = s.params ∧ w.srcLen = s.srcLen ∧
    (∀ i, i < s.srcLen.toNat → w.srcByte i = s.srcByte i) ∧
    w.dstLim.toNat = s.dstLim.toNat + u.dstLim.toNat ∧ w.dstLim.toNat ≤ w.params.bufBytes :=
  ⟨loaded [0x10, 0x32, 0x54, 0x76] 4, _, loaded [0x54, 0x76] 4, _, loaded [0x10, 0x32, 0x54, 0x76] 8,
    admissible_defaultParams, by decide, rfl, rfl, rfl, by decide +kernel, by decide +kernel, rfl, rfl, rfl, rfl,
    by decide, by decide, by decide⟩

/-- OddLimitResumptionLosesOneDigit: V2's decode, and the byte it left. -/
theorem witness_OddLimit : ∃ s t u v : State, admissible s.params = true ∧ s.dstLim.toNat % 2 = 1 ∧
    s.dstLim.toNat < decodableLength s ∧ exec .ddec s = .next t ∧ t.status.err = .ok ∧
    u.srcLen.toNat = s.srcLen.toNat - t.consumed.toNat ∧
    (∀ i, i < u.srcLen.toNat → u.srcByte i = s.srcByte (t.consumed.toNat + i)) ∧
    exec .ddec u = .next v ∧ v.status.err = .ok ∧ 0 < v.outLen.toNat :=
  ⟨loaded [0x10, 0x32, 0x54, 0x76] 5, _, loaded [0x76] 8, _, admissible_defaultParams, by decide, by decide, rfl, rfl,
    by decide +kernel, by decide +kernel, rfl, rfl, by decide +kernel⟩

/-- BcdPairRoundTrip: both ends of the range, and a pair. -/
theorem witness_BcdPair : (0 ≤ 99 ∧ 99 ≤ 99) ∧ lo (0x99 : Byte) ≤ 9 ∧ hi (0x99 : Byte) ≤ 9 := by decide

/-- OffsetByteRoundTrip: q = -79 at TZ_QH_MAX = 79; the negative zero; a decoded magnitude above TZ_QH_MAX = 40. -/
theorem witness_OffsetByte : (79 ≤ 79 ∧ (-79 : Int).natAbs ≤ 79) ∧
    (tzDec 0x08 = .ok 0 ∧ (0 : Int).natAbs ≤ 79) ∧ (40 ≤ 79 ∧ tzDec 0x9F = .ok (-79) ∧ 40 < (-79 : Int).natAbs) := by
  decide +kernel

/-- CenturyWindow: both ends of the window and the years next to them, at the default pivot. -/
theorem witness_CenturyWindow : 70 ≤ 100 ∧ (1900 + 70 ≤ 1970 ∧ 1970 < 2000 + 70) ∧ (1900 + 70 ≤ 2069 ∧ 2069 < 2000 + 70) ∧
    ¬ (1900 + 70 ≤ 1969 ∧ 1969 < 2000 + 70) ∧ ¬ (1900 + 70 ≤ 2070 ∧ 2070 < 2000 + 70) := by decide

/-- TsencMeaning: the month out of range (V72), the second out of range, the offset out of range (V70), and a success at
the largest offset (V69). -/
theorem witness_Tsenc : ∃ s u v w : State,
    (admissible s.params = true ∧ 99 < tsField s.ts 1 ∧ ∀ j, j < 1 → tsField s.ts j ≤ 99) ∧
    (admissible u.params = true ∧ 99 < tsField u.ts 5 ∧ ∀ j, j < 5 → tsField u.ts j ≤ 99) ∧
    (admissible v.params = true ∧ (∀ k, k < 6 → tsField v.ts k ≤ 99) ∧
      v.params.tzQhMax < (v.ts.offset.toInt.tdiv 15).natAbs) ∧
    (admissible w.params = true ∧ (∀ k, k < 6 → tsField w.ts k ≤ 99) ∧
      (w.ts.offset.toInt.tdiv 15).natAbs ≤ w.params.tzQhMax) :=
  ⟨stamped ⟨2024, 100, 1, 0, 0, 0, 1440⟩, stamped ⟨2024, 1, 1, 0, 0, 100, 0⟩, stamped ⟨2024, 1, 1, 0, 0, 0, 1200⟩,
    stamped ⟨2024, 1, 1, 0, 0, 0, 0xFB51⟩, ⟨admissible_defaultParams, by decide, by decide⟩,
    ⟨admissible_defaultParams, by decide, by decide⟩, ⟨admissible_defaultParams, by decide, by decide⟩,
    ⟨admissible_defaultParams, by decide, by decide⟩⟩

/-- TsencOffsetRange: -1199 minutes, accepted, and +1200, not (V69, V70). -/
theorem witness_TsencOffsetRange : ∀ m ∈ [(0xFB51 : BitVec 16), 1200], ∃ s t : State, s.ts.offset = m ∧
    s.params.tzQhMax = 79 ∧ (∀ k, k < 6 → tsField s.ts k ≤ 99) ∧ exec .tsenc s = .next t := by
  intro m _
  obtain ⟨t, ht, -⟩ := exec_effect .tsenc (stamped ⟨2024, 1, 1, 0, 0, 0, m⟩)
  exact ⟨_, t, rfl, rfl, (by decide : ∀ k, k < 6 → tsField ⟨2024, 1, 1, 0, 0, 0, 0⟩ k ≤ 99), ht⟩

/-- TsdecMeaning's clauses after the length: six bytes (V94), a bad sixth byte, a bad offset byte (V89), a success
(V83). -/
theorem witness_Tsdec : ∃ s u v w : State,
    (s.srcLen.toNat ≤ s.params.bufBytes ∧ s.srcLen.toNat < 7) ∧
    (u.srcLen.toNat ≤ u.params.bufBytes ∧ 7 ≤ u.srcLen.toNat ∧ ¬ isPair (u.srcByte 5) ∧ ∀ j, j < 5 → isPair (u.srcByte j)) ∧
    (v.srcLen.toNat ≤ v.params.bufBytes ∧ 7 ≤ v.srcLen.toNat ∧ (∀ k, k < 6 → isPair (v.srcByte k)) ∧
      9 < (v.srcByte 6).toNat / 16) ∧
    (w.srcLen.toNat ≤ w.params.bufBytes ∧ 7 ≤ w.srcLen.toNat ∧ (∀ k, k < 6 → isPair (w.srcByte k)) ∧
      (w.srcByte 6).toNat / 16 ≤ 9) := by
  refine ⟨loaded [0x99, 0x21, 0x13, 0x32, 0x95, 0x95] 0, loaded [0x42, 0x20, 0x92, 0x21, 0x00, 0x0A, 0x00] 0,
    loaded [0x42, 0x20, 0x92, 0x21, 0x00, 0x00, 0xA8] 0, loaded [0x96, 0x21, 0x13, 0x32, 0x95, 0x95, 0x9F] 0, ?_⟩
  unfold isPair
  decide

/-- TimestampRoundTrip: V1's registers, and its seven bytes copied to SRCBUF. -/
theorem witness_TimestampRoundTrip : ∃ s t u : State, admissible s.params = true ∧
    1900 + s.params.centuryPivot ≤ s.ts.year.toNat ∧ s.ts.year.toNat < 2000 + s.params.centuryPivot ∧
    (∀ k, k < 6 → tsField s.ts k ≤ 99) ∧ (s.ts.offset.toInt.tdiv 15).natAbs ≤ s.params.tzQhMax ∧
    s.ts.offset.toInt % 15 = 0 ∧ exec .tsenc s = .next t ∧ u.params = s.params ∧ u.srcLen = 7 ∧
    ∀ k, k < 7 → u.srcByte k = t.dstByte k :=
  ⟨stamped ⟨1999, 12, 31, 23, 59, 59, 0xFFF1⟩, _, loaded [0x99, 0x21, 0x13, 0x32, 0x95, 0x95, 0x18] 0,
    admissible_defaultParams, by decide, by decide, by decide, by decide, by decide, rfl, rfl, by decide, by decide +kernel⟩

/-- EncoderIsLowestCode: an image of 128 codes. -/
theorem witness_Encoder : refExtDec.length = 128 := by decide +kernel

/-- CharsetDecodeMeaning: a defined code of each table (V106, V109), an undefined one (V111), and 0x80 (V107). -/
theorem witness_CharsetDecode :
    ((asked 0x7F).csIn.toNat ≤ 0x7F ∧ (asked 0x7F).params.defDec[(asked 0x7F).csIn.toNat]? = some (some 0xE0)) ∧
    ((asked 0x65).csIn.toNat ≤ 0x7F ∧ (asked 0x65).params.extDec[(asked 0x65).csIn.toNat]? = some (some 0x20AC)) ∧
    (∀ p : CodePoint, (asked 0).params.extDec[(asked 0).csIn.toNat]? ≠ some (some p)) ∧ 0x7F < (asked 0x80).csIn.toNat := by
  refine ⟨by decide +kernel, by decide +kernel, fun p => ?_, by decide⟩
  rw [show (asked 0).params.extDec[(asked 0).csIn.toNat]? = some none by decide +kernel]
  simp

/-- CharsetEncodeMeaning: the smallest of the codes of a code point in each table (V113, V123), and a code point of no code
(V119). -/
theorem witness_CharsetEncode : admissible defaultParams = true ∧
    (defaultParams.defDec[0]? = some (some 0x40) ∧ (0x40 : CodePoint).toNat = (asked 0x40).csIn.toNat ∧
      ∀ (c' : Nat) (r : CodePoint), c' < 0 → defaultParams.defDec[c']? = some (some r) → r.toNat ≠ (asked 0x40).csIn.toNat) ∧
    (defaultParams.extDec[0x40]? = some (some 0x7C) ∧ (0x7C : CodePoint).toNat = (asked 0x7C).csIn.toNat ∧
      ∀ (c' : Nat) (r : CodePoint), c' < 0x40 → defaultParams.extDec[c']? = some (some r) →
        r.toNat ≠ (asked 0x7C).csIn.toNat) ∧
    ∀ (c : Nat) (q : CodePoint), defaultParams.defDec[c]? = some (some q) → q.toNat ≠ (asked 0x110000).csIn.toNat := by
  refine ⟨admissible_defaultParams, ⟨by decide +kernel, by decide, fun _ _ h => absurd h (Nat.not_lt_zero _)⟩,
    ⟨by decide +kernel, by decide, ?_⟩, ?_⟩
  · intro c' r hc h
    have all : ((List.range 0x40).all fun c => !entryIs 0x7C (defaultParams.extDec[c]?.getD none)) = true := by decide +kernel
    have one := List.all_eq_true.1 all c' (List.mem_range.2 hc)
    rw [h, Option.getD_some, entryIs, Bool.not_eq_true', beq_eq_false_iff_ne] at one
    exact one
  intro c q h
  have hq := ((romShape_iff defaultParams.defDec).1 (by decide +kernel)).2 c q ((romLookup_eq_some_iff _ c q).2 h)
  show q.toNat ≠ 0x110000
  unfold maxCodePoint at hq
  omega

/-- FixedCodesInEveryImage: each of the four codes, by each command. -/
theorem witness_FixedCodes : ∀ x ∈ [(0x0A : Word), 0x0D, 0x1B, 0x20], ∀ i ∈ [Instr.csdd, .csed], ∃ s : State,
    admissible s.params = true ∧ (i = .csdd ∨ i = .csed) ∧ s.csIn.toNat ∈ [0x0A, 0x0D, 0x1B, 0x20] := by
  intro x hx i hi
  refine ⟨asked x, admissible_defaultParams, by simpa using hi, ?_⟩
  simp only [List.mem_cons, List.not_mem_nil, or_false] at hx
  rcases hx with rfl | rfl | rfl | rfl <;> decide

/-- DefaultTableReencodes: V105's code and its code point. -/
theorem witness_DefaultTable : ∃ s t u : State, admissible s.params = true ∧ exec .csdd s = .next t ∧ t.status.err = .ok ∧
    u.params = s.params ∧ u.csIn = t.csOut.setWidth 32 :=
  let ⟨t, ht, h⟩ := endsWith_next (o := exec .csdd (asked 0x24)) (e := .ok) (by decide +kernel)
  ⟨asked 0x24, t, { State.reset with csIn := t.csOut.setWidth 32 }, admissible_defaultParams, ht, h, rfl, rfl⟩

/-- ExtensionTableReencodesToLowest: V109's code and its code point. -/
theorem witness_ExtensionTable : ∃ s t u : State, admissible s.params = true ∧ exec .csde s = .next t ∧
    t.status.err = .ok ∧ u.params = s.params ∧ u.csIn = t.csOut.setWidth 32 :=
  let ⟨t, ht, h⟩ := endsWith_next (o := exec .csde (asked 0x65)) (e := .ok) (by decide +kernel)
  ⟨asked 0x65, t, { State.reset with csIn := t.csOut.setWidth 32 }, admissible_defaultParams, ht, h, rfl, rfl⟩

end Sys2Proof.Tests
end

section
/-! PROOFS of 00_scope.md: which parameters are admissible (R5, R6) and what a step does with no event waiting (R13). -/

namespace Sys2Proof.Machine

/-- R161's four entries, read off the image itself. -/
theorem fixedEntries_iff (rom : List (Option CodePoint)) : fixedEntries rom = true ↔
    rom[0x0A]? = some (some 0x0A) ∧ rom[0x0D]? = some (some 0x0D) ∧ rom[0x1B]? = some (some 0x1B) ∧
      rom[0x20]? = some (some 0x20) := by
  simp only [fixedEntries, Bool.and_eq_true, beq_iff_eq, romLookup_eq_some_iff, and_assoc]

/-- The block never acts on its own (R13, R231): with no event waiting a step answers the state it started from. -/
theorem step_idle {s : State} (hadm : admissible s.params = true) (hp : s.pending = []) : step s = .next s := by
  unfold step
  rw [if_pos hadm, hp]

/-- Settles O7: each check of `admissible` is equivalent to its rule; the images are read by index instead of through
`romLookup`. -/
theorem admissibleExactlyByRules : Obligations.AdmissibleExactlyByRules := by
  intro p
  rw [admissible_iff, legalNumbers_iff, romShape_iff, romShape_iff, fixedEntries_iff, romEntries_nodup_iff]
  simp only [romLookup_eq_some_iff, maxCodePoint]

/-- Settles O6: the idle case of the step. -/
theorem idleStepChangesNothing : Obligations.IdleStepChangesNothing :=
  fun _ hadm hp => step_idle hadm hp

end Sys2Proof.Machine
end

section
/-! PROOFS of 10_state.md: what the registers read and take, the invariant every step keeps, the frames of the commands,
and that a command depends on nothing but its operands. -/

namespace Sys2Proof.Machine

/-! ## The invariant -/

/-- The state right after reset has the invariant: every register is 0 and no buffer byte is listed (R39, R221). -/
theorem resetWith_inv {p : Params} (d : Nat) (hp : admissible p = true) : (State.resetWith p d).Inv where
  params := hp
  src := ⟨rfl, rfl⟩
  dst := ⟨rfl, rfl⟩
  outLen := Nat.zero_le _
  consumed := Nat.zero_le _
  csOut := Nat.zero_le _
  okValue _ := rfl
  errLengths h := absurd rfl h
  notDone _ := ⟨rfl, rfl, rfl, rfl⟩

/-- The host's list and the data bus are no part of the invariant. -/
theorem State.Inv.of_eq_besides_host {s t : State} (h : s.Inv)
    (ht : t = { s with pending := t.pending, readData := t.readData }) : t.Inv := by
  rw [ht]
  exact { h with }

theorem applyReset_inv {s : State} (hp : admissible s.params = true) : (applyReset s).Inv :=
  (resetWith_inv (s.draws + 1) hp).of_eq_besides_host rfl

/-- A buffer word of the window lies inside its buffer with all four bytes, since BUF_BYTES is a multiple of 4 (R5, R51). -/
theorem locate_word_within {p : Params} {off i : Nat} (hp : admissible p = true) (ha : off % 4 = 0)
    (hl : locate p.bufBytes off = .source i ∨ locate p.bufBytes off = .destination i) : i + 4 ≤ p.bufBytes := by
  have hn := admissible_numbers hp
  rcases hl with hl | hl
  · have := locate_source hl
    omega
  · have := locate_destination hl
    omega

/-- A host write keeps the invariant: it changes no result register, and each buffer keeps its form and its size. -/
theorem writeLocation_inv {s : State} {off : Nat} {w : Word} (h : s.Inv) (ha : off % 4 = 0) :
    (writeLocation (locate s.params.bufBytes off) w s).Inv := by
  have hsrc := writeLocation_src (w := w) h.src.1 h.src.2 fun i hi => locate_word_within h.params ha (.inl hi)
  have hdst := writeLocation_dst (w := w) h.dst.1 h.dst.2 fun i hi => locate_word_within h.params ha (.inr hi)
  generalize locate s.params.bufBytes off = l at hsrc hdst ⊢
  cases l with
  | register r => cases r <;> exact { h with }
  | source i => exact { h with src := hsrc }
  | destination i => exact { h with dst := hdst }
  | unused => exact h

/-- Raising an error keeps the invariant (R203): the two lengths become 0, and the kind is not OK. -/
theorem raise_inv {s : State} {e : CommandError} (h : s.Inv) (he : e.kind ≠ .ok) : (State.raise e s).Inv where
  params := h.params
  src := h.src
  dst := h.dst
  outLen := Nat.zero_le _
  consumed := Nat.zero_le _
  csOut := h.csOut
  okValue hk := absurd hk he
  errLengths _ := ⟨rfl, rfl⟩
  notDone hd := by simp at hd

theorem toNat_ofNat_le {m n : Nat} (h : m ≤ n) : (BitVec.ofNat 32 m).toNat ≤ n := by
  rw [BitVec.toNat_ofNat]
  exact (Nat.mod_le _ _).trans h

/-- A command that ends `ok` (R204) leaves the invariant from the parameters, the buffers and CS_OUT alone: it writes every
other field the invariant speaks of. -/
theorem complete_inv {s : State} {m c : Nat} (hp : admissible s.params = true)
    (hsrc : s.srcBuf.wf = true ∧ s.srcBuf.within s.params.bufBytes = true)
    (hdst : s.dstBuf.wf = true ∧ s.dstBuf.within s.params.bufBytes = true) (hcs : s.csOut.toNat ≤ maxCodePoint)
    (hm : m ≤ s.params.bufBytes) (hc : c ≤ s.params.bufBytes) : (State.complete m c s).Inv where
  params := hp
  src := hsrc
  dst := hdst
  outLen := toNat_ofNat_le hm
  consumed := toNat_ofNat_le hc
  csOut := hcs
  okValue _ := rfl
  errLengths h := absurd rfl h
  notDone hd := by simp at hd

theorem ok_notMem_mayRaise (i : Instr) : ErrKind.ok ∉ mayRaise i := by cases i <;> decide

/-- Every command keeps the invariant, whichever way it ends. -/
theorem CommandEffect.inv {i : Instr} {s t : State} (he : CommandEffect i s t) (h : s.Inv) : t.Inv := by
  cases he with
  | error e hk => exact raise_inv h fun hok => ok_notMem_mayRaise i (hok ▸ hk)
  | stored bs c hi hb =>
    obtain ⟨hlen, hc⟩ := hb h.params
    have hdst : (State.storeDst bs s).dstBuf.wf = true ∧ (State.storeDst bs s).dstBuf.within s.params.bufBytes = true :=
      ⟨Memory.wf_writeAll bs 0 h.dst.1, Memory.within_writeAll bs 0 h.dst.2 (by omega)⟩
    exact complete_inv h.params h.src hdst h.csOut hlen hc
  | stamped r hi hb => exact complete_inv h.params h.src h.dst h.csOut (Nat.zero_le _) hb
  | lookedUp p hi hp => exact complete_inv h.params h.src h.dst (hp h.params) (Nat.zero_le _) (Nat.zero_le _)

/-- A write of any word to CMD keeps the invariant. -/
theorem runCommand_inv {s t : State} {w : Word} (h : s.Inv) (ht : runCommand w s = .next t) : t.Inv := by
  obtain ⟨t', ht', he⟩ := runCommand_effect w s
  obtain rfl : t = t' := by simpa [ht] using ht'
  rcases he with ⟨i, -, he⟩ | ⟨-, rfl⟩
  · exact he.inv h
  · exact raise_inv h (by simp)

theorem acceptEvent_inv {s : State} (rest : List HostEvent) (h : s.Inv) : (acceptEvent rest s).Inv :=
  h.of_eq_besides_host rfl

/-- Settles O9, by the cases of `StepEffect`: reset re-establishes the invariant, and a read, a host write and a command each
keep it. -/
theorem stepKeepsInvariant : Obligations.StepKeepsInvariant := by
  intro s t h hst
  have ha {rest} := acceptEvent_inv rest h
  cases (step_effect hst).2 with
  | idle hp => exact h
  | reset lost rest hp => exact applyReset_inv ha.params
  | read addr off rest hp ho halign => exact h.of_eq_besides_host rfl
  | write addr off w rest hp ho halign hl => exact writeLocation_inv ha halign
  | command addr off w rest hp ho halign hl t ht => exact runCommand_inv ha ht

/-- Settles O10: the reset values, and the check of the default parameters. -/
theorem resetMeetsInvariant : Obligations.ResetMeetsInvariant :=
  ⟨fun _ d hp => resetWith_inv d hp, resetWith_inv 0 admissible_defaultParams⟩

/-- Settles O11, by the cases of `StepEffect`. -/
theorem stepKeepsParameters : Obligations.StepKeepsParameters := by
  intro s t hst
  cases (step_effect hst).2 with
  | idle hp => rfl
  | reset lost rest hp => rfl
  | read addr off rest hp ho ha => rfl
  | write addr off w rest hp ho ha hl => exact writeLocation_keeps.1
  | command addr off w rest hp ho ha hl t ht => exact (runCommand_keeps ht).1

/-! ## A write to CMD -/

theorem runCommand_of_decode {w : Word} {i : Instr} (s : State) (hd : decode w = .ok i) : runCommand w s = exec i s := by
  simp [runCommand, hd]

/-- Settles O5: `step_cmd` at a word that decodes. -/
theorem cmdWriteRunsDecodedCommand : Obligations.CmdWriteRunsDecodedCommand := by
  intro s w i rest hadm hp hd
  rw [step_cmd hadm hp, runCommand_of_decode _ hd]
  rfl

theorem srcByte_congr {s t : State} (hb : t.srcBuf = s.srcBuf) (hd : t.draws = s.draws) (i : Nat) :
    t.srcByte i = s.srcByte i := by
  simp only [State.srcByte, hb, hd]

/-- Settles O12: no CMD write touches SRCBUF (`runCommand_keeps`). -/
theorem commandsNeverWriteSource : Obligations.CommandsNeverWriteSource := by
  intro s t w rest hp hst
  rw [step_cmd (step_effect hst).1 hp] at hst
  obtain ⟨-, hb, -, -, -, hd, -, -, -⟩ := runCommand_keeps hst
  exact ⟨hb, hd, srcByte_congr hb hd⟩

/-! ## The registers -/

/-- STATUS as a number (R23): ERR in the four low bits, DONE above the four reserved ones. -/
theorem Status.word_toNat (st : Status) : st.word.toNat = (if st.done then 256 else 0) + st.err.code.toNat := by
  have hcode := st.err.code.isLt
  simp only [Status.word, BitVec.toNat_append, BitVec.toNat_ofBool]
  rw [← Nat.shiftLeft_add_eq_or_of_lt hcode]
  cases st.done <;> simp

/-- Settles O30: the word by its number, the codes by definition. -/
theorem statusWordLayout : Obligations.StatusWordLayout :=
  ⟨Status.word_toNat, rfl, rfl, rfl, rfl, rfl, rfl, rfl, rfl, rfl, rfl⟩

/-- STATUS as a sum of its two fields (R23). -/
theorem Status.word_eq (st : Status) : st.word = (if st.done then 0x100 else 0) + st.err.code.setWidth 32 := by
  have hcode := st.err.code.isLt
  apply BitVec.eq_of_toNat_eq
  rw [Status.word_toNat, BitVec.toNat_add, BitVec.toNat_setWidth]
  cases st.done <;> simp <;> omega

/-- CONFIG's three fields side by side are a sum, each parameter fitting its field (R5, R29). -/
theorem configWord_eq {p : Params} (hp : admissible p = true) :
    configWord p = BitVec.ofNat 32 (p.bufBytes + 0x10000 * p.centuryPivot + 0x1000000 * p.tzQhMax) := by
  obtain ⟨-, -, -, hbuf, hpivot, hqh⟩ := admissible_numbers hp
  apply BitVec.eq_of_toNat_eq
  simp only [configWord, BitVec.toNat_append, BitVec.toNat_ofNat]
  rw [← Nat.shiftLeft_add_eq_or_of_lt (by omega), ← Nat.shiftLeft_add_eq_or_of_lt (by omega)]
  simp only [Nat.shiftLeft_eq]
  omega

/-- A register's offset is a word of the window's first 0x100 bytes (R21). -/
theorem registerAt_offset {off : Nat} {r : RegName} (h : registerAt off = some r) : off % 4 = 0 ∧ off < 0x100 := by
  have hall : ∀ p ∈ registerMap, p.2 % 4 = 0 ∧ p.2 < 0x100 := by decide
  obtain ⟨p, hp, -⟩ := Option.map_eq_some_iff.1 h
  obtain rfl : p.2 = off := by simpa using List.find?_some hp
  exact hall p (List.mem_of_find?_eq_some hp)

/-- A read at a register's offset puts the register on the data bus, and does nothing else (R55). -/
theorem step_readRegister {s : State} {off : Nat} {r : RegName} {rest : List HostEvent} (hadm : admissible s.params = true)
    (hr : registerAt off = some r) (hp : s.pending = .access (.read 4 (s.params.blockBase + off)) :: rest) :
    step s = .next { s with pending := rest, readData := some (readRegister r (acceptEvent rest s)) } := by
  obtain ⟨halign, hoff⟩ := registerAt_offset hr
  rw [step_read hadm (by omega) halign hp, locate_register _ hr hoff]
  rfl

/-- A write at the offset of a register other than CMD writes the register (R55). -/
theorem step_writeRegister {s : State} {off : Nat} {r : RegName} {w : Word} {rest : List HostEvent}
    (hadm : admissible s.params = true) (hr : registerAt off = some r) (hc : r ≠ .cmd)
    (hp : s.pending = .access (.write 4 (s.params.blockBase + off) w) :: rest) :
    step s = .next (writeRegister r w (acceptEvent rest s)) := by
  obtain ⟨halign, hoff⟩ := registerAt_offset hr
  rw [step_write hadm (by omega) halign hp, locate_register _ hr hoff, storeAt_other _ _ (by simpa using hc)]
  rfl

/-- Settles O14: every register but CONFIG is 0 by `State.resetWith`. -/
theorem resetRegisterReads : Obligations.ResetRegisterReads := by
  refine fun p d r => ⟨fun hr => ?_, rfl⟩
  cases r with
  | config => exact absurd rfl hr
  | status => exact Status.word_eq ⟨false, .ok⟩
  | _ => rfl

/-- Settles O15: the register at each offset of R21, and what it reads as. -/
theorem registerReads : Obligations.RegisterReads := by
  intro s rest off v hadm hp hmem
  obtain ⟨r, hr, rfl⟩ : ∃ r, registerAt off = some r ∧ readRegister r (acceptEvent rest s) = v := by
    simp only [List.mem_cons, Prod.mk.injEq, List.not_mem_nil, or_false] at hmem
    rcases hmem with ⟨rfl, rfl⟩ | ⟨rfl, rfl⟩ | ⟨rfl, rfl⟩ | ⟨rfl, rfl⟩ | ⟨rfl, rfl⟩ | ⟨rfl, rfl⟩ | ⟨rfl, rfl⟩ |
      ⟨rfl, rfl⟩ | ⟨rfl, rfl⟩ | ⟨rfl, rfl⟩ | ⟨rfl, rfl⟩ | ⟨rfl, rfl⟩ | ⟨rfl, rfl⟩ | ⟨rfl, rfl⟩ | ⟨rfl, rfl⟩ |
      ⟨rfl, rfl⟩ | ⟨rfl, rfl⟩
    · exact ⟨.cmd, rfl, rfl⟩
    · exact ⟨.status, rfl, Status.word_eq _⟩
    · exact ⟨.errVal, rfl, rfl⟩
    · exact ⟨.srcLen, rfl, rfl⟩
    · exact ⟨.dstLim, rfl, rfl⟩
    · exact ⟨.outLen, rfl, rfl⟩
    · exact ⟨.consumed, rfl, rfl⟩
    · exact ⟨.config, rfl, configWord_eq hadm⟩
    · exact ⟨.tsYear, rfl, rfl⟩
    · exact ⟨.tsMonth, rfl, rfl⟩
    · exact ⟨.tsDay, rfl, rfl⟩
    · exact ⟨.tsHour, rfl, rfl⟩
    · exact ⟨.tsMin, rfl, rfl⟩
    · exact ⟨.tsSec, rfl, rfl⟩
    · exact ⟨.tsOffset, rfl, rfl⟩
    · exact ⟨.csIn, rfl, rfl⟩
    · exact ⟨.csOut, rfl, rfl⟩
  exact step_readRegister hadm hr hp

/-- Settles O16: the register at each offset of R42's read-write registers, and what a write to it leaves. -/
theorem registerWrites : Obligations.RegisterWrites := by
  intro s t rest off w hadm hp hmem
  obtain ⟨r, hr, hc, hw⟩ : ∃ r, registerAt off = some r ∧ r ≠ .cmd ∧
      writeRegister r w (acceptEvent rest s) = { t with pending := rest, readData := none } := by
    simp only [List.mem_cons, Prod.mk.injEq, List.not_mem_nil, or_false] at hmem
    rcases hmem with ⟨rfl, rfl⟩ | ⟨rfl, rfl⟩ | ⟨rfl, rfl⟩ | ⟨rfl, rfl⟩ | ⟨rfl, rfl⟩ | ⟨rfl, rfl⟩ | ⟨rfl, rfl⟩ |
      ⟨rfl, rfl⟩ | ⟨rfl, rfl⟩ | ⟨rfl, rfl⟩
    · exact ⟨.srcLen, rfl, by decide, rfl⟩
    · exact ⟨.dstLim, rfl, by decide, rfl⟩
    · exact ⟨.tsYear, rfl, by decide, rfl⟩
    · exact ⟨.tsMonth, rfl, by decide, rfl⟩
    · exact ⟨.tsDay, rfl, by decide, rfl⟩
    · exact ⟨.tsHour, rfl, by decide, rfl⟩
    · exact ⟨.tsMin, rfl, by decide, rfl⟩
    · exact ⟨.tsSec, rfl, by decide, rfl⟩
    · exact ⟨.tsOffset, rfl, by decide, rfl⟩
    · exact ⟨.csIn, rfl, by decide, rfl⟩
  rw [step_writeRegister hadm hr hc hp, hw]

/-- Settles O17: the register at each offset of R42's read-only registers, and that a write to it is ignored. -/
theorem readOnlyWritesIgnored : Obligations.ReadOnlyWritesIgnored := by
  intro s rest off w hadm hp hmem
  obtain ⟨r, hr, hc, hw⟩ : ∃ r, registerAt off = some r ∧ r ≠ .cmd ∧
      writeRegister r w (acceptEvent rest s) = acceptEvent rest s := by
    simp only [List.mem_cons, List.not_mem_nil, or_false] at hmem
    rcases hmem with rfl | rfl | rfl | rfl | rfl | rfl
    · exact ⟨.status, rfl, by decide, rfl⟩
    · exact ⟨.errVal, rfl, by decide, rfl⟩
    · exact ⟨.outLen, rfl, by decide, rfl⟩
    · exact ⟨.consumed, rfl, by decide, rfl⟩
    · exact ⟨.config, rfl, by decide, rfl⟩
    · exact ⟨.csOut, rfl, by decide, rfl⟩
  rw [step_writeRegister hadm hr hc hp, hw]
  rfl

/-! ## The frames of the commands -/

/-- Settles O32, by the two ways a storing command ends: the bytes past those stored are left, and an error stores none. -/
theorem storingCommandsFrame : Obligations.StoringCommandsFrame := by
  intro i s t hadm hi hexec
  cases effect_of_exec hexec with
  | error e hk => exact ⟨rfl, fun _ _ => rfl, fun _ => rfl⟩
  | stored bs c _ hb =>
    have hn := admissible_numbers hadm
    have hlen : (BitVec.ofNat 32 bs.length).toNat = bs.length := by
      have := (hb hadm).1
      rw [BitVec.toNat_ofNat]
      omega
    refine ⟨rfl, fun a ha => storeDst_dstByte_ge bs s ?_, fun _ => rfl⟩
    rwa [complete_outLen, hlen] at ha
  | stamped r hts _ => simp [hts] at hi
  | lookedUp p hcs _ => rcases hcs with rfl | rfl | rfl | rfl <;> simp at hi

/-- Settles O33, by the cases of `CommandEffect`: none but `stored` writes a buffer byte. -/
theorem nonStoringCommandsFrame : Obligations.NonStoringCommandsFrame := by
  intro i s t hexec
  cases effect_of_exec hexec with
  | error e hk => exact ⟨fun _ => rfl, fun _ => rfl, fun _ _ => ⟨rfl, rfl⟩⟩
  | stored bs c hst _ => rcases hst with rfl | rfl | rfl <;> simp
  | stamped r hts _ => subst hts; exact ⟨fun _ => rfl, by simp, fun _ _ => ⟨rfl, rfl⟩⟩
  | lookedUp p hcs _ =>
    refine ⟨?_, fun _ => rfl, fun _ _ => ⟨rfl, rfl⟩⟩
    rcases hcs with rfl | rfl | rfl | rfl <;> simp

/-! ## A command depends on nothing but its operands -/

/-- The rule of each command: the state it ends `ok` in, or its error. -/
def commandRule : Instr → State → Except CommandError State
  | .denc => denc
  | .ddec => ddec
  | .tsenc => tsenc
  | .tsdec => tsdec
  | .csdd => fun s => charsetDecode s.params.defDec s
  | .csde => fun s => charsetDecode s.params.extDec s
  | .csed => fun s => charsetEncode s.params.defDec s
  | .csee => fun s => charsetEncode s.params.extDec s

theorem exec_eq_conclude (i : Instr) (s : State) : exec i s = conclude s (commandRule i s) := by cases i <;> rfl

/-- What the command `i` computes from its operands, apart from the state it started in: the cases of `CommandEffect`. -/
inductive CommandResult (i : Instr) where
  | error (e : CommandError) (h : e.kind ∈ mayRaise i)
  | stored (bs : List Byte) (consumed : Nat) (hi : i = .denc ∨ i = .ddec ∨ i = .tsenc)
  | stamped (r : TsRegs) (hi : i = .tsdec)
  | lookedUp (p : CodePoint) (hi : i = .csdd ∨ i = .csde ∨ i = .csed ∨ i = .csee)

/-- The state that a result leaves of the state the command started in. -/
def CommandResult.applyTo {i : Instr} (s : State) : CommandResult i → State
  | .error e _ => State.raise e s
  | .stored bs c _ => State.complete bs.length c (State.storeDst bs s)
  | .stamped r _ => State.complete 0 7 (State.setTs r s)
  | .lookedUp p _ => State.complete 0 0 (State.setCsOut p s)

/-- The command ends with one and the same result, whether started in `s` or in `u`. -/
def SameResult (i : Instr) (s u : State) : Prop :=
  ∃ r : CommandResult i, exec i s = .next (r.applyTo s) ∧ exec i u = .next (r.applyTo u)

theorem SameResult.of_error {i : Instr} {s u : State} {e : CommandError} (he : e.kind ∈ mayRaise i)
    (hs : commandRule i s = .error e) (hu : commandRule i u = .error e) : SameResult i s u :=
  ⟨.error e he, by rw [exec_eq_conclude, hs]; rfl, by rw [exec_eq_conclude, hu]; rfl⟩

theorem SameResult.of_ok {i : Instr} {s u : State} (r : CommandResult i) (hs : commandRule i s = .ok (r.applyTo s))
    (hu : commandRule i u = .ok (r.applyTo u)) : SameResult i s u :=
  ⟨r, by rw [exec_eq_conclude, hs]; rfl, by rw [exec_eq_conclude, hu]; rfl⟩

theorem srcBytes_congr {s u : State} {n : Nat} (h : ∀ k, k < n → u.srcByte k = s.srcByte k) :
    srcBytes u n = srcBytes s n := by
  refine List.ext_getElem? fun k => ?_
  by_cases hk : k < n
  · rw [srcBytes_getElem? u hk, srcBytes_getElem? s hk, h k hk]
  · rw [List.getElem?_eq_none (by simpa using hk), List.getElem?_eq_none (by simpa using hk)]

theorem unmarshal_congr (pivot : Nat) {f g : Nat → Byte} (h : ∀ k, k < 7 → f k = g k) :
    unmarshal pivot f = unmarshal pivot g := by
  simp only [unmarshal, h 0 (by omega), h 1 (by omega), h 2 (by omega), h 3 (by omega), h 4 (by omega), h 5 (by omega),
    h 6 (by omega)]

/-- DENC reads SRC_LEN and that many source bytes (R74, R120). -/
theorem denc_sameResult {s u : State} (hp : u.params = s.params) (hn : u.srcLen = s.srcLen)
    (hb : ∀ k, k < s.srcLen.toNat → u.srcByte k = s.srcByte k) : SameResult .denc s u := by
  have hsrc : digitNibbles (srcBytes u u.srcLen.toNat) = digitNibbles (srcBytes s s.srcLen.toNat) := by
    rw [hn, srcBytes_congr hb]
  by_cases h : s.srcLen.toNat ≤ s.params.bufBytes
  · have hu : u.srcLen.toNat ≤ u.params.bufBytes := by rwa [hn, hp]
    cases hd : digitNibbles (srcBytes s s.srcLen.toNat) with
    | error e =>
      exact .of_error (by simp [mayRaise, digitNibbles_errorKind hd]) (denc_error h hd) (denc_error hu (hsrc.trans hd))
    | ok ds =>
      have hlen : (s.srcLen.toNat + 1) / 2 = (packDigits ds).length := by
        rw [packDigits_length, digitNibbles_length hd, srcBytes_length]
      have hs := denc_ok h hd
      have hu := denc_ok hu (hsrc.trans hd)
      rw [hlen] at hs
      rw [hn, hlen] at hu
      exact .of_ok (.stored (packDigits ds) s.srcLen.toNat (.inl rfl)) hs hu
  · have hu : u.params.bufBytes < u.srcLen.toNat := by rw [hn, hp]; omega
    exact .of_error (by simp [mayRaise]) (denc_badLength (by omega)) (hn ▸ denc_badLength hu)

/-- DDEC reads SRC_LEN, DST_LIM and SRC_LEN source bytes (R74, R122). -/
theorem ddec_sameResult {s u : State} (hp : u.params = s.params) (hn : u.srcLen = s.srcLen) (hl : u.dstLim = s.dstLim)
    (hb : ∀ k, k < s.srcLen.toNat → u.srcByte k = s.srcByte k) : SameResult .ddec s u := by
  have hsrc : unpackDigits (srcBytes u u.srcLen.toNat) u.dstLim.toNat =
      unpackDigits (srcBytes s s.srcLen.toNat) s.dstLim.toNat := by rw [hn, hl, srcBytes_congr hb]
  by_cases h : s.srcLen.toNat ≤ s.params.bufBytes
  · have hu : u.srcLen.toNat ≤ u.params.bufBytes := by rwa [hn, hp]
    by_cases hlim : s.dstLim.toNat ≤ s.params.bufBytes
    · have hulim : u.dstLim.toNat ≤ u.params.bufBytes := by rwa [hl, hp]
      cases hd : unpackDigits (srcBytes s s.srcLen.toNat) s.dstLim.toNat with
      | error b =>
        exact .of_error (by simp [mayRaise]) (ddec_error h hlim hd) (ddec_error hu hulim (hsrc.trans hd))
      | ok dc =>
        exact .of_ok (.stored dc.1 dc.2 (.inr (.inl rfl))) (ddec_ok h hlim hd) (ddec_ok hu hulim (hsrc.trans hd))
    · have hulim : u.params.bufBytes < u.dstLim.toNat := by rw [hl, hp]; omega
      exact .of_error (by simp [mayRaise]) (ddec_badLimit h (by omega)) (hl ▸ ddec_badLimit hu hulim)
  · have hu : u.params.bufBytes < u.srcLen.toNat := by rw [hn, hp]; omega
    exact .of_error (by simp [mayRaise]) (ddec_badSource (by omega)) (hn ▸ ddec_badSource hu)

/-- TSENC reads the TS registers (R74, R140). -/
theorem tsenc_sameResult {s u : State} (hp : u.params = s.params) (ht : u.ts = s.ts) : SameResult .tsenc s u := by
  have hm : marshal u.params.tzQhMax u.ts = marshal s.params.tzQhMax s.ts := by rw [hp, ht]
  cases hd : marshal s.params.tzQhMax s.ts with
  | error e => exact .of_error (by simp [mayRaise, marshal_errorKind hd]) (tsenc_error hd) (tsenc_error (hm.trans hd))
  | ok bs =>
    have hs := tsenc_ok hd
    have hu := tsenc_ok (hm.trans hd)
    rw [← marshal_length hd] at hs hu
    exact .of_ok (.stored bs 0 (.inr (.inr rfl))) hs hu

/-- TSDEC reads SRC_LEN and seven source bytes (R74, R145). -/
theorem tsdec_sameResult {s u : State} (hp : u.params = s.params) (hn : u.srcLen = s.srcLen)
    (hb : ∀ k, k < 7 → u.srcByte k = s.srcByte k) : SameResult .tsdec s u := by
  have hm : unmarshal u.params.centuryPivot u.srcByte = unmarshal s.params.centuryPivot s.srcByte := by
    rw [hp, unmarshal_congr _ hb]
  by_cases h : s.srcLen.toNat ≤ s.params.bufBytes
  · have hu : u.srcLen.toNat ≤ u.params.bufBytes := by rwa [hn, hp]
    by_cases h7 : 7 ≤ s.srcLen.toNat
    · have hu7 : 7 ≤ u.srcLen.toNat := by rwa [hn]
      cases hd : unmarshal s.params.centuryPivot s.srcByte with
      | error e =>
        exact .of_error (by simp [mayRaise, unmarshal_errorKind hd]) (tsdec_error h h7 hd)
          (tsdec_error hu hu7 (hm.trans hd))
      | ok r => exact .of_ok (.stamped r rfl) (tsdec_ok h h7 hd) (tsdec_ok hu hu7 (hm.trans hd))
    · have hu7 : u.srcLen.toNat < 7 := by rw [hn]; omega
      exact .of_error (by simp [mayRaise]) (tsdec_underflow h (by omega)) (hn ▸ tsdec_underflow hu hu7)
  · have hu : u.params.bufBytes < u.srcLen.toNat := by rw [hn, hp]; omega
    exact .of_error (by simp [mayRaise]) (tsdec_badLength (by omega)) (hn ▸ tsdec_badLength hu)

/-- The decode commands read CS_IN and their image `rom` (R74, R166, R167). -/
theorem charsetDecode_sameResult {i : Instr} {s u : State} (rom : Params → List (Option CodePoint))
    (hr : ∀ t, commandRule i t = charsetDecode (rom t.params) t) (hi : i = .csdd ∨ i = .csde) (hp : u.params = s.params)
    (hc : u.csIn = s.csIn) : SameResult i s u := by
  cases hd : romDecode (rom s.params) s.csIn with
  | none =>
    refine .of_error (e := ⟨.notDecodable, s.csIn⟩) (by rcases hi with rfl | rfl <;> simp [mayRaise]) ?_ ?_
    · rw [hr, charsetDecode, hd]
    · rw [hr, charsetDecode, hp, hc, hd]
  | some p =>
    refine .of_ok (.lookedUp p (by tauto)) ?_ ?_
    · rw [hr, charsetDecode, hd]; rfl
    · rw [hr, charsetDecode, hp, hc, hd]; rfl

/-- The encode commands read CS_IN and their image `rom` (R74, R168, R169). -/
theorem charsetEncode_sameResult {i : Instr} {s u : State} (rom : Params → List (Option CodePoint))
    (hr : ∀ t, commandRule i t = charsetEncode (rom t.params) t) (hi : i = .csed ∨ i = .csee) (hp : u.params = s.params)
    (hc : u.csIn = s.csIn) : SameResult i s u := by
  cases hd : romEncode (rom s.params) s.csIn with
  | none =>
    refine .of_error (e := ⟨.notEncodable, s.csIn⟩) (by rcases hi with rfl | rfl <;> simp [mayRaise]) ?_ ?_
    · rw [hr, charsetEncode, hd]
    · rw [hr, charsetEncode, hp, hc, hd]
  | some c =>
    refine .of_ok (.lookedUp (BitVec.ofNat 21 c) (by tauto)) ?_ ?_
    · rw [hr, charsetEncode, hd]; rfl
    · rw [hr, charsetEncode, hp, hc, hd]; rfl

/-- Settles O34: the command's result is the same in both states, and whatever it writes is a function of the result. -/
theorem commandsReadOnlyTheirOperands : Obligations.CommandsReadOnlyTheirOperands := by
  intro i s u s' u' hp hs hu hop
  obtain ⟨r, hrs, hru⟩ : SameResult i s u := by
    cases i with
    | denc =>
      obtain ⟨hn, hb⟩ := hop
      exact denc_sameResult hp hn hb
    | ddec =>
      obtain ⟨hn, hl, hb⟩ := hop
      exact ddec_sameResult hp hn hl hb
    | tsenc => exact tsenc_sameResult hp hop
    | tsdec =>
      obtain ⟨hn, hb⟩ := hop
      exact tsdec_sameResult hp hn hb
    | csdd => exact charsetDecode_sameResult Params.defDec (fun _ => rfl) (.inl rfl) hp hop
    | csde => exact charsetDecode_sameResult Params.extDec (fun _ => rfl) (.inr rfl) hp hop
    | csed => exact charsetEncode_sameResult Params.defDec (fun _ => rfl) (.inl rfl) hp hop
    | csee => exact charsetEncode_sameResult Params.extDec (fun _ => rfl) (.inr rfl) hp hop
  obtain rfl : s' = r.applyTo s := by simpa [hs] using hrs
  obtain rfl : u' = r.applyTo u := by simpa [hu] using hru
  cases r with
  | error e he =>
    have hok (h : e.kind = .ok) : False := ok_notMem_mayRaise i (h ▸ he)
    exact ⟨rfl, rfl, rfl, rfl, fun k hk => absurd hk (Nat.not_lt_zero k), fun h => (hok h).elim, fun h => (hok h).elim⟩
  | stored bs c hi =>
    refine ⟨rfl, rfl, rfl, rfl, fun k hk => ?_, ?_, ?_⟩
    · have hk : k < bs.length := hk.trans_le (toNat_ofNat_le le_rfl)
      exact (storeDst_dstByte_lt bs u hk).trans (storeDst_dstByte_lt bs s hk).symm
    · rcases hi with rfl | rfl | rfl <;> simp
    · rcases hi with rfl | rfl | rfl <;> simp
  | stamped r hi =>
    exact ⟨rfl, rfl, rfl, rfl, fun k hk => absurd hk (Nat.not_lt_zero k), fun _ _ => rfl, by simp [hi]⟩
  | lookedUp p hi =>
    refine ⟨rfl, rfl, rfl, rfl, fun k hk => absurd hk (Nat.not_lt_zero k), ?_, fun _ _ => rfl⟩
    rcases hi with rfl | rfl | rfl | rfl <;> simp

end Sys2Proof.Machine
end

section
/-! PROOFS of 20_memory.md: which accesses the block takes (R50, R52, R60), what its unused offsets and buffer words do
(R51, R53, R57), and that no read has a side effect (R55). -/

namespace Sys2Proof.Machine

/-! ## Accesses that fault -/

theorem windowOffset_eq_none_iff {base addr : Nat} :
    windowOffset base addr = none ↔ addr < base ∨ base + 0x4000 ≤ addr := by
  simp only [windowOffset, ite_eq_right_iff, reduceCtorEq, imp_false]
  omega

/-- An access outside the window is none of the block's (R50, log 11). -/
theorem perform_outside {a : HostAccess} {s : State} (h : windowOffset s.params.blockBase a.addr = none) :
    perform a s = .fault (.outsideWindow a) := by
  simp only [perform, h]

/-- An access in the window acts by its offset (R50). -/
theorem perform_inside {a : HostAccess} {s : State} {off : Nat} (ho : off < 0x4000)
    (ha : a.addr = s.params.blockBase + off) : perform a s = performAt a off s := by
  simp only [perform, ha, windowOffset_base ho]

theorem supported_eq_false {size off : Nat} (h : size ≠ 4 ∨ off % 4 ≠ 0) : supported size off = false := by
  rw [Bool.eq_false_iff, Ne, supported_iff]
  omega

/-- Settles O23: each form of access has the address `addr`, which has no offset in the window. -/
theorem accessOutsideWindowFaults : Obligations.AccessOutsideWindowFaults := by
  intro s a rest addr size w hadm hp hout ha
  have haddr : a.addr = addr := by rcases ha with rfl | rfl | rfl <;> rfl
  rw [step_access hadm hp]
  apply perform_outside
  rw [haddr]
  exact windowOffset_eq_none_iff.2 hout

/-- Settles O22: the access reaches the block, which supports no other width or alignment and no fetch. -/
theorem unsupportedAccessFaults : Obligations.UnsupportedAccessFaults := by
  intro s a rest off size w hadm ho hp ha
  have haddr : a.addr = s.params.blockBase + off := by rcases ha with ⟨-, rfl | rfl⟩ | rfl <;> rfl
  rw [step_access hadm hp, perform_inside (s := acceptEvent rest s) ho haddr]
  rcases ha with ⟨hbad, rfl | rfl⟩ | rfl
  · simp [performAt, supported_eq_false hbad]
  · simp [performAt, supported_eq_false hbad]
  · rfl

/-! ## Reads -/

/-- Settles O24: of what a step can do (`StepEffect`), only `read` begins with a read. -/
theorem readsChangeNothing : Obligations.ReadsChangeNothing := by
  intro s t rest size addr hp hst
  cases (step_effect hst).2 with
  | idle hp' => simp [hp] at hp'
  | reset lost rest' hp' => simp [hp] at hp'
  | read addr' off rest' hp' ho ha =>
    obtain ⟨-, rfl⟩ : _ ∧ rest = rest' := by simpa [hp] using hp'
    exact ⟨_, rfl⟩
  | write addr' off w rest' hp' ho ha hl => simp [hp] at hp'
  | command addr' off w rest' hp' ho ha hl t ht => simp [hp] at hp'

/-! ## Unused offsets -/

theorem registerAt_eq_none_iff {off : Nat} : registerAt off = none ↔ off ∉ registerMap.map Prod.snd := by
  simp only [registerAt, Option.map_eq_none_iff, List.find?_eq_none, List.mem_map, not_exists, not_and, beq_iff_eq]

/-- The offsets at which nothing stands: those that R21 does not list, and those beyond a buffer (R50, R51). -/
theorem locate_unused {buf off : Nat}
    (h : off < 0x100 ∧ registerAt off = none ∨ (0x100 ≤ off ∧ off < 0x1000) ∨ (0x1000 + buf ≤ off ∧ off < 0x2000) ∨
      (0x2000 + buf ≤ off ∧ off < 0x3000) ∨ 0x3000 ≤ off) : locate buf off = .unused := by
  by_cases hreg : off < 0x100
  · have hnone : registerAt off = none := by
      rcases h with h | h | h | h | h
      · exact h.2
      all_goals omega
    simp [locate, hreg, hnone]
  · unfold locate
    rw [if_neg hreg, if_neg (by omega), if_neg (by omega)]

/-- Settles O18: at such an offset stands `Location.unused`, which reads 0 and is not written. -/
theorem unusedOffsetsReadZeroIgnoreWrites : Obligations.UnusedOffsetsReadZeroIgnoreWrites := by
  intro s rest off w hadm halign hoff
  have ho : off < 0x4000 := by omega
  have hl : locate s.params.bufBytes off = .unused := locate_unused <| by
    rcases hoff with ⟨hlt, hmem⟩ | h | h | h | h
    · exact .inl ⟨hlt, registerAt_eq_none_iff.2 hmem⟩
    all_goals omega
  constructor
  · intro hp
    rw [step_read hadm ho halign hp, hl]
    rfl
  · intro hp
    rw [step_write hadm ho halign hp, hl]
    rfl

/-! ## Buffer words -/

/-- The word of four consecutive bytes has them as its bytes, little-endian (R51). -/
theorem byteOf_wordOf_consecutive (f : Nat → Byte) (i : Nat) {j : Nat} (h : j < 4) :
    byteOf (wordOf (f i) (f (i + 1)) (f (i + 2)) (f (i + 3))) j = f (i + j) := by
  rw [byteOf_wordOf _ _ _ _ h]
  match j, h with
  | 0, _ => rfl
  | 1, _ => rfl
  | 2, _ => rfl
  | 3, _ => rfl

/-- The byte `i + j` of a buffer in which the word `w` has been written at `i` is byte `j` of the word. -/
theorem Memory.read_writeAll_byteOf (m : Memory) (i : Nat) (w : Word) {j : Nat} (h : j < 4) :
    (m.writeAll i [byteOf w 0, byteOf w 1, byteOf w 2, byteOf w 3]).read (i + j) = some (byteOf w j) := by
  rw [Memory.read_writeAll_word _ _ _ _ _ _ h]
  match j, h with
  | 0, _ => rfl
  | 1, _ => rfl
  | 2, _ => rfl
  | 3, _ => rfl

/-- The bytes outside a word written are left. -/
theorem Memory.read_writeAll_outside (m : Memory) {i j : Nat} (bs : List Byte) (h : j < i ∨ i + bs.length ≤ j) :
    (m.writeAll i bs).read j = m.read j := by
  rcases h with h | h
  · exact Memory.read_writeAll_below bs m i j h
  · exact Memory.read_writeAll_above bs m i j h

/-- A host write of a word of SRCBUF sets its four bytes (R51). -/
theorem writeLocation_source_srcByte (s : State) (i : Nat) (w : Word) {j : Nat} (h : j < 4) :
    (writeLocation (.source i) w s).srcByte (i + j) = byteOf w j := by
  simp only [State.srcByte, writeLocation, Memory.read_writeAll_byteOf _ _ _ h, Option.getD_some]

/-- It leaves every other byte of SRCBUF. -/
theorem writeLocation_source_srcByte_outside (s : State) {i a : Nat} (w : Word) (h : a < i ∨ i + 4 ≤ a) :
    (writeLocation (.source i) w s).srcByte a = s.srcByte a := by
  simp only [State.srcByte, writeLocation, Memory.read_writeAll_outside s.srcBuf [_, _, _, _] h]

/-- A host write of a word of DSTBUF sets its four bytes (R51). -/
theorem writeLocation_destination_dstByte (s : State) (i : Nat) (w : Word) {j : Nat} (h : j < 4) :
    (writeLocation (.destination i) w s).dstByte (i + j) = byteOf w j := by
  simp only [State.dstByte, writeLocation, Memory.read_writeAll_byteOf _ _ _ h, Option.getD_some]

/-- It leaves every other byte of DSTBUF. -/
theorem writeLocation_destination_dstByte_outside (s : State) {i a : Nat} (w : Word) (h : a < i ∨ i + 4 ≤ a) :
    (writeLocation (.destination i) w s).dstByte a = s.dstByte a := by
  simp only [State.dstByte, writeLocation, Memory.read_writeAll_outside s.dstBuf [_, _, _, _] h]

/-- Settles O19: the read answers the word of four source bytes, and the write is `writeLocation` at them. -/
theorem sourceWindowWords : Obligations.SourceWindowWords := by
  intro s rest k w hadm hk
  have hn := admissible_numbers hadm
  constructor
  · intro hp
    rw [step_read hadm (by omega) (by omega) hp, locate_src_word hk (by omega)]
    exact ⟨_, rfl, fun j hj => byteOf_wordOf_consecutive s.srcByte (4 * k) hj⟩
  · intro hp
    exact ⟨_, step_write_source hadm hk hp, rfl,
      fun j hj => writeLocation_source_srcByte (acceptEvent rest s) (4 * k) w hj,
      fun i hi => writeLocation_source_srcByte_outside (acceptEvent rest s) w hi⟩

/-- Settles O20: the same of the destination bytes. -/
theorem destinationWindowWords : Obligations.DestinationWindowWords := by
  intro s rest k w hadm hk
  have hn := admissible_numbers hadm
  constructor
  · intro hp
    rw [step_read hadm (by omega) (by omega) hp, locate_dst_word hk (by omega)]
    exact ⟨_, rfl, fun j hj => byteOf_wordOf_consecutive s.dstByte (4 * k) hj⟩
  · intro hp
    exact ⟨_, step_write_destination hadm hk hp, rfl,
      fun j hj => writeLocation_destination_dstByte (acceptEvent rest s) (4 * k) w hj,
      fun i hi => writeLocation_destination_dstByte_outside (acceptEvent rest s) w hi⟩

/-! ## A word written is read back -/

/-- Two words with the same four bytes are the same. -/
theorem word_eq_of_byteOf {v w : Word} (h : ∀ j, j < 4 → byteOf v j = byteOf w j) : v = w := by
  rw [← wordOf_byteOf v, ← wordOf_byteOf w, h 0 (by omega), h 1 (by omega), h 2 (by omega), h 3 (by omega)]

/-- Neither the host's list nor the data bus is read. -/
theorem readLocation_acceptEvent (l : Location) (rest : List HostEvent) (s : State) :
    readLocation l (acceptEvent rest s) = readLocation l s := by
  cases l with
  | register r => cases r <;> rfl
  | source i => rfl
  | destination i => rfl
  | unused => rfl

/-- A buffer word reads as the word written to it, whose four bytes it holds (R51). -/
theorem readLocation_writeLocation {l : Location} {i : Nat} (hl : l = .source i ∨ l = .destination i) (w : Word)
    (s : State) : readLocation l (writeLocation l w s) = w := by
  refine word_eq_of_byteOf fun j hj => ?_
  rcases hl with rfl | rfl
  · exact (byteOf_wordOf_consecutive _ i hj).trans (writeLocation_source_srcByte s i w hj)
  · exact (byteOf_wordOf_consecutive _ i hj).trans (writeLocation_destination_dstByte s i w hj)

/-- Settles O21: both accesses act at one location, a buffer word, which reads as what was written there. -/
theorem bufferWordReadsBack : Obligations.BufferWordReadsBack := by
  intro s rest k base w hadm hk hbase hp
  have hn := admissible_numbers hadm
  have hl : locate s.params.bufBytes (base + 4 * k) = .source (4 * k) ∨
      locate s.params.bufBytes (base + 4 * k) = .destination (4 * k) := by
    rcases hbase with rfl | rfl
    · exact .inl (locate_src_word hk (by omega))
    · exact .inr (locate_dst_word hk (by omega))
  have hcmd : locate s.params.bufBytes (base + 4 * k) ≠ .register .cmd := by rcases hl with hl | hl <;> simp [hl]
  have hst := step_write hadm (by omega) (by omega) hp
  rw [storeAt_other _ _ hcmd] at hst
  obtain ⟨hparams, -, -, -, -, -, -, hpending, -⟩ := writeLocation_keeps
    (l := locate s.params.bufBytes (base + 4 * k)) (w := w)
    (s := acceptEvent (.access (.read 4 (s.params.blockBase + (base + 4 * k))) :: rest) s)
  rw [acceptEvent_params] at hparams
  refine ⟨_, _, hst, step_read (off := base + 4 * k) ?_ (by omega) (by omega) ?_, ?_, rfl⟩
  · rwa [hparams]
  · rw [hparams]; exact hpending
  · rw [hparams, readLocation_acceptEvent, readLocation_writeLocation hl]

end Sys2Proof.Machine
end

section
/-! PROOFS of 30_encoding.md: the command word (R70 to R73) and the accesses LDSRC stands for (R83). -/

namespace Sys2Proof

/-! ## Decode and encode -/

/-- A word is its two fields (R70). -/
theorem rsvField_append_opField (w : Word) : rsvField w ++ opField w = w :=
  (BitVec.extractLsb'_append_extractLsb'_eq_extractLsb' rfl).trans BitVec.extractLsb'_eq_self

@[simp] theorem opField_encode (i : Instr) : opField (encode i) = opOf i := by cases i <;> rfl

@[simp] theorem rsvField_encode (i : Instr) : rsvField (encode i) = 0 := by cases i <;> rfl

theorem decode_encode (i : Instr) : decode (encode i) = .ok i :=
  (decode_ok_iff _ i).2 ⟨rsvField_encode i, opField_encode i⟩

/-- A command has one word: the decoder fixes both fields of it. -/
theorem eq_encode_of_decode {w : Word} {i : Instr} (h : decode w = .ok i) : w = encode i := by
  obtain ⟨hrsv, hop⟩ := (decode_ok_iff w i).1 h
  rw [← rsvField_append_opField w, hrsv, hop]
  rfl

/-- Settles O3: one direction is `decode_encode`, the other `eq_encode_of_decode`. -/
theorem decodeAgreesWithEncode : Obligations.DecodeAgreesWithEncode :=
  fun _ i => ⟨eq_encode_of_decode, fun h => h ▸ decode_encode i⟩

/-- Settles O1: the eight words are the encodings of the eight commands. -/
theorem commandWordsDecode : Obligations.CommandWordsDecode :=
  ⟨decode_encode .denc, decode_encode .ddec, decode_encode .tsenc, decode_encode .tsdec, decode_encode .csdd,
    decode_encode .csde, decode_encode .csed, decode_encode .csee⟩

/-! ## The words that are no command -/

/-- The decoder's two rejections (R71, R73). -/
theorem decode_error_iff (w : Word) :
    (∃ e, decode w = .error e) ↔ rsvField w ≠ 0 ∨ instrOfOp (opField w) = none := by
  unfold decode
  by_cases hrsv : rsvField w = 0
  · cases hop : instrOfOp (opField w) with
    | none => simp [hrsv]
    | some i => simp [hrsv]
  · rw [if_pos hrsv]
    exact ⟨fun _ => .inl hrsv, fun _ => ⟨_, rfl⟩⟩

/-- The same by the word's value, as R71 words it. -/
theorem decode_error_iff_toNat (w : Word) :
    (∃ e, decode w = .error e) ↔ w.toNat / 16 ≠ 0 ∨ w.toNat % 16 = 0 ∨ 9 ≤ w.toNat % 16 := by
  rw [decode_error_iff, Ne, rsvField_eq_zero_iff, instrOfOp_eq_none_iff, opField_toNat]

theorem decode_ok_iff_toNat (w : Word) (i : Instr) :
    decode w = .ok i ↔ w.toNat / 16 = 0 ∧ w.toNat % 16 = (opOf i).toNat := by
  rw [decode_ok_iff, rsvField_eq_zero_iff, ← BitVec.toNat_inj, opField_toNat]

/-- Settles O2: the two fields of the word read as numbers. -/
theorem decodeSelectsByOpAndReservedBits : Obligations.DecodeSelectsByOpAndReservedBits :=
  fun w => ⟨decode_ok_iff_toNat w, decode_error_iff_toNat w⟩

end Sys2Proof

namespace Sys2Proof.Machine

theorem runCommand_of_decode_error {w : Word} {e : DecodeError} (s : State) (hd : decode w = .error e) :
    runCommand w s = .next (State.raise ⟨.illegalCommand, w⟩ s) := by
  simp [runCommand, hd, illegalCommand, conclude_error]

/-- Settles O4: `step_cmd` at a word that does not decode. -/
theorem illegalWordRaisesIllegalCommand : Obligations.IllegalWordRaisesIllegalCommand := by
  intro s w rest hadm hp hw
  obtain ⟨e, hd⟩ := (decode_error_iff_toNat w).2 hw
  rw [step_cmd hadm hp, runCommand_of_decode_error _ hd]
  rfl

/-! ## LDSRC -/

/-- The accesses of a non-empty byte sequence: a word of its first four bytes, those past its end being 0x00, then the
accesses of the others (R83). -/
theorem loadWords_of_ne_nil (base off : Nat) {bs : List Byte} (h : bs ≠ []) :
    loadWords base off bs = hostW base off (wordOf (bs.getD 0 0) (bs.getD 1 0) (bs.getD 2 0) (bs.getD 3 0)) ::
      loadWords base (off + 4) (bs.drop 4) := by
  match bs, h with
  | [_], _ => rfl
  | [_, _], _ => rfl
  | [_, _, _], _ => rfl
  | _ :: _ :: _ :: _ :: _, _ => rfl

/-- The first access of a load at source word `k` sets that word's four bytes and changes nothing else of the block. -/
theorem step_loadWords {s : State} {bs : List Byte} {k : Nat} {rest : List HostEvent} (hadm : admissible s.params = true)
    (hne : bs ≠ []) (hk : 4 * k < s.params.bufBytes)
    (hp : s.pending = loadWords s.params.blockBase (0x1000 + 4 * k) bs ++ rest) :
    ∃ u : State, step s = .next u ∧
      u = { s with
        pending := loadWords s.params.blockBase (0x1000 + 4 * (k + 1)) (bs.drop 4) ++ rest, readData := none,
        srcBuf := u.srcBuf } ∧
      ∀ i, u.srcByte i = if 4 * k ≤ i ∧ i < 4 * k + 4 then bs.getD (i - 4 * k) 0 else s.srcByte i := by
  rw [loadWords_of_ne_nil _ _ hne] at hp
  refine ⟨_, step_write_source hadm hk hp, rfl, fun i => ?_⟩
  split
  case isTrue hi =>
    obtain ⟨j, rfl⟩ := Nat.exists_eq_add_of_le hi.1
    have hj : j < 4 := by omega
    rw [Nat.add_sub_cancel_left, ← Nat.zero_add j, ← byteOf_wordOf_consecutive (bs.getD · 0) 0 hj, Nat.zero_add]
    exact writeLocation_source_srcByte (acceptEvent _ s) (4 * k) _ hj
  case isFalse hi =>
    exact writeLocation_source_srcByte_outside (acceptEvent _ s) _ (by omega)

/-- A load of `n` words from source word `k` on, by induction on `n`: the words' bytes are those of the sequence, 0x00 past
its end, and nothing else of the block changes. -/
theorem run_loadWords (n : Nat) : ∀ {s : State} {bs : List Byte} {k : Nat} {rest : List HostEvent},
    admissible s.params = true → (bs.length + 3) / 4 = n → 4 * (k + n) ≤ s.params.bufBytes →
    s.pending = loadWords s.params.blockBase (0x1000 + 4 * k) bs ++ rest →
    ∃ t : State, Host.Core.run Sys2Proof.core n s = .next t ∧
      t = { s with pending := rest, readData := t.readData, srcBuf := t.srcBuf } ∧
      ∀ i, t.srcByte i = if 4 * k ≤ i ∧ i < 4 * (k + n) then bs.getD (i - 4 * k) 0 else s.srcByte i := by
  induction n with
  | zero =>
    intro s bs k rest hadm hn hlen hp
    obtain rfl : bs = [] := List.eq_nil_of_length_eq_zero (by omega)
    obtain rfl : s.pending = rest := hp
    exact ⟨s, rfl, rfl, fun i => (if_neg (by omega)).symm⟩
  | succ n ih =>
    intro s bs k rest hadm hn hlen hp
    have hpos : 0 < bs.length := by omega
    obtain ⟨u, hst, hu, hub⟩ := step_loadWords hadm (List.ne_nil_of_length_pos hpos) (by omega) hp
    have hup : u.params = s.params := by rw [hu]
    have hdrop : (bs.drop 4).length = bs.length - 4 := List.length_drop
    obtain ⟨t, hrun, ht, htb⟩ := ih (s := u) (bs := bs.drop 4) (k := k + 1) (rest := rest) (hup ▸ hadm) (by omega)
      (by rw [hup]; omega) (by rw [hup, hu])
    refine ⟨t, (core_run_of_step hst).trans hrun, by rw [ht, hu], fun i => ?_⟩
    rw [htb, hub]
    by_cases hlater : 4 * (k + 1) ≤ i ∧ i < 4 * (k + 1 + n)
    · have hidx : 4 + (i - 4 * (k + 1)) = i - 4 * k := by omega
      rw [if_pos hlater, if_pos (by omega), List.getD_eq_getElem?_getD, List.getElem?_drop, hidx,
        ← List.getD_eq_getElem?_getD]
    · rw [if_neg hlater]
      exact if_congr (by omega) rfl rfl

/-- Settles O26: `run_loadWords` at source word 0; an index past the end of the sequence has the fill byte. -/
theorem ldsrcLoadsSource : Obligations.LdsrcLoadsSource := by
  intro s bs rest hadm hlen hp
  have hn := admissible_numbers hadm
  obtain ⟨t, hrun, ht, htb⟩ := run_loadWords ((bs.length + 3) / 4) (k := 0) hadm rfl (by omega) hp
  refine ⟨t, hrun, ht, fun i => ?_⟩
  rw [htb]
  by_cases hi : i < bs.length
  · rw [if_pos hi, if_pos (by omega)]
    rfl
  · rw [if_neg hi]
    simp only [Nat.mul_zero, Nat.zero_le, Nat.zero_add, true_and, Nat.sub_zero, List.getD_eq_default _ _ (Nat.not_lt.1 hi)]

end Sys2Proof.Machine
end

section
/-! PROOFS of 40_bcd_primitives.md: the digit alphabet (R101), pair packing (R102) and the nibble swap (R103). -/

namespace Sys2Proof.Machine

/-! ## The digit alphabet -/

/-- The table of R101 read entry by entry; a nibble has sixteen values. -/
theorem symOf_eq_table (d : Nibble) : symOf d =
    if d.toNat ≤ 9 then some (BitVec.ofNat 8 (0x30 + d.toNat)) else if d = 0xA then some 0x2A else if d = 0xB then some 0x23
    else if d = 0xC then some 0x61 else if d = 0xD then some 0x62 else if d = 0xE then some 0x63 else none := by
  revert d
  decide

/-- Settles O35: the table is `symOf_eq_table`, its inverse `nibOf_eq_some_iff`. (The model's own list has the plain name
`digitAlphabet`.) -/
theorem digitAlphabet_bijection : Obligations.DigitAlphabet := ⟨symOf_eq_table, nibOf_eq_some_iff⟩

/-! ## Pair packing and the nibble swap -/

theorem swapNibbles_eq_pack (b : Byte) : swapNibbles b = pack (hi b) (lo b) := rfl

/-- The swap packs the two nibbles in the other order, so a second one puts them back. -/
@[simp] theorem swapNibbles_swapNibbles (b : Byte) : swapNibbles (swapNibbles b) = b :=
  calc swapNibbles (swapNibbles b)
    _ = pack (hi (pack (hi b) (lo b))) (lo (pack (hi b) (lo b))) := by simp only [swapNibbles_eq_pack]
    _ = pack (lo b) (hi b) := by rw [hi_pack, lo_pack]
    _ = b := pack_lo_hi b

/-- Settles O36: packing is undone by `lo_pack` and `hi_pack`, the swap by itself. -/
theorem pairPackingAndSwap : Obligations.PairPackingAndSwap :=
  ⟨fun d0 d1 => ⟨pack_toNat d0 d1, lo_pack d0 d1, hi_pack d0 d1⟩,
    fun b => ⟨swapNibbles_eq_pack b, swapNibbles_swapNibbles b⟩⟩

end Sys2Proof.Machine
end

section
/-! PROOFS of 41_digit_codec.md: what DENC (R120) and DDEC (R122) do, whole. -/

namespace Sys2Proof.Machine

/-! ## How a command ends, and what it stores -/

theorem exec_of_ok {i : Instr} {s t : State} (h : commandRule i s = .ok t) : exec i s = .next t := by
  rw [exec_eq_conclude, h, conclude_ok]

theorem exec_of_error {i : Instr} {s : State} {e : CommandError} (h : commandRule i s = .error e) :
    exec i s = .next (State.raise e s) := by
  rw [exec_eq_conclude, h, conclude_error]

theorem toNat_ofNat_of_le_toNat {m : Nat} {w : Word} (h : m ≤ w.toNat) : (BitVec.ofNat 32 m).toNat = m :=
  Nat.mod_eq_of_lt (h.trans_lt w.isLt)

theorem storeDst_dstByte_of_getElem? {bs : List Byte} {k : Nat} {b : Byte} (s : State) (h : bs[k]? = some b) :
    (State.storeDst bs s).dstByte k = b := by
  obtain ⟨hk, rfl⟩ := List.getElem?_eq_some_iff.1 h
  exact storeDst_dstByte_lt bs s hk

/-! ## DENC -/

theorem srcBytes_getElem?_eq_some_iff {s : State} {n i : Nat} {x : Byte} :
    (srcBytes s n)[i]? = some x ↔ i < n ∧ s.srcByte i = x := by
  by_cases hi : i < n
  · rw [srcBytes_getElem? s hi]
    simp [hi]
  · simp [hi]

/-- The digits of a source string of symbols. -/
theorem digitNibbles_srcBytes_ok {s : State} {n : Nat} {d : Nat → Nibble}
    (h : ∀ i, i < n → nibOf (s.srcByte i) = some (d i)) :
    ∃ ds, digitNibbles (srcBytes s n) = .ok ds ∧ ds.length = n ∧ ∀ i, i < n → ds[i]? = some (d i) := by
  have hsym (i : Nat) (x : Byte) (hx : (srcBytes s n)[i]? = some x) : nibOf x = some (d i) := by
    obtain ⟨hi, rfl⟩ := srcBytes_getElem?_eq_some_iff.1 hx
    exact h i hi
  simpa using digitNibbles_ok (srcBytes s n) d hsym

/-- The lowest source byte that is no symbol is reported. -/
theorem digitNibbles_srcBytes_error {s : State} {n i : Nat} (hi : i < n) (hbad : nibOf (s.srcByte i) = none)
    (hlow : ∀ j, j < i → nibOf (s.srcByte j) ≠ none) :
    digitNibbles (srcBytes s n) = .error ⟨.invalidDigit, (s.srcByte i).setWidth 32⟩ := by
  refine digitNibbles_error _ i _ (srcBytes_getElem? s hi) hbad fun j y hj hy => ?_
  obtain ⟨-, rfl⟩ := srcBytes_getElem?_eq_some_iff.1 hy
  exact hlow j hj

/-- Settles O37: the length check, the lowest byte that is no symbol, else the packed digits stored from DST[0]. -/
theorem dencMeaning : Obligations.DencMeaning := by
  refine ⟨by decide, fun s => ⟨fun hlen => exec_of_error (i := .denc) (denc_badLength hlen), ?_, ?_⟩⟩
  · intro i hlen hi hbad hlow
    exact exec_of_error (i := .denc) (denc_error hlen (digitNibbles_srcBytes_error hi hbad hlow))
  · intro d hlen hsym
    obtain ⟨ds, hds, hcount, hdigit⟩ := digitNibbles_srcBytes_ok hsym
    have hpacked : (packDigits ds).length = (s.srcLen.toNat + 1) / 2 := by rw [packDigits_length, hcount]
    have hout : (BitVec.ofNat 32 ((s.srcLen.toNat + 1) / 2)).toNat = (s.srcLen.toNat + 1) / 2 :=
      toNat_ofNat_of_le_toNat (w := s.srcLen) (by omega)
    refine ⟨_, exec_of_ok (i := .denc) (denc_ok hlen hds), ?_, hout, fun k hk => ?_, fun k hk => ?_, fun k hk => ?_⟩
    · simp [State.complete, State.storeDst]
    · rw [complete_dstByte, storeDst_dstByte_of_getElem? s
        (packDigits_pair ds k _ _ (hdigit _ (by omega)) (hdigit _ hk)), pack_toNat]
    · rw [complete_dstByte, storeDst_dstByte_of_getElem? s
        (packDigits_last ds k _ (by omega) (hdigit _ (by omega))), pack_toNat]
      rfl
    · rw [complete_outLen, hout, ← hpacked] at hk
      rw [complete_dstByte, storeDst_dstByte_ge _ s hk]

/-! ## DDEC -/

/-- DDEC's loop on the source buffer, with no fill value among the nibbles it places. -/
theorem unpackDigits_srcBytes_ok {s : State} {room : Nat}
    (h : ∀ j, j < min room (decodableLength s) → srcNibble s j ≠ fill) :
    ∃ ds, unpackDigits (srcBytes s s.srcLen.toNat) room = .ok (ds, (min room (decodableLength s) + 1) / 2) ∧
      ds.length = min room (decodableLength s) ∧
      ∀ j, j < min room (decodableLength s) → ds[j]? = symOf (srcNibble s j) := by
  have hnib (j : Nat) (hj : j < min room (decodableLength s)) :
      nibbleOf (srcBytes s s.srcLen.toNat) j = srcNibble s j :=
    nibbleOf_srcBytes (by have := decodableLength_le s; omega)
  obtain ⟨ds, hu, hcount, hdigit⟩ := unpackDigits_ok (srcBytes s s.srcLen.toNat) room fun j hj => by
    rw [digitsIn_srcBytes] at hj
    rw [hnib j hj]
    exact h j hj
  rw [digitsIn_srcBytes] at hu hcount hdigit
  exact ⟨ds, hu, hcount, fun j hj => by rw [hdigit j hj, hnib j hj]⟩

/-- DDEC's loop on the source buffer, `j` being the first fill value among the nibbles it places. -/
theorem unpackDigits_srcBytes_error {s : State} {room j : Nat} (hj : j < min room (decodableLength s))
    (hfill : srcNibble s j = fill) (hfirst : ∀ i, i < j → srcNibble s i ≠ fill) :
    unpackDigits (srcBytes s s.srcLen.toNat) room = .error (s.srcByte (j / 2)) := by
  have hsrc : j < 2 * s.srcLen.toNat := by have := decodableLength_le s; omega
  have hbyte : (srcBytes s s.srcLen.toNat).getD (j / 2) 0 = s.srcByte (j / 2) := by
    rw [List.getD_eq_getElem?_getD, srcBytes_getElem? s (by omega), Option.getD_some]
  rw [← hbyte]
  refine unpackDigits_error _ room j (by rwa [digitsIn_srcBytes]) (by rwa [nibbleOf_srcBytes hsrc]) fun i hi => ?_
  rw [nibbleOf_srcBytes (hi.trans hsrc)]
  exact hfirst i hi

/-- Settles O39: the two length checks, the first fill value among the placed nibbles, else the digits stored from
DST[0]. -/
theorem ddecMeaning : Obligations.DdecMeaning := by
  refine ⟨by decide, fun s => ⟨fun hlen => exec_of_error (i := .ddec) (ddec_badSource hlen),
    fun hlen hlim => exec_of_error (i := .ddec) (ddec_badLimit hlen hlim), ?_, ?_⟩⟩
  · intro j hlen hlim hj hfill hfirst
    exact exec_of_error (i := .ddec) (ddec_error hlen hlim (unpackDigits_srcBytes_error hj hfill hfirst))
  · intro hlen hlim hnofill
    obtain ⟨ds, hu, hcount, hdigit⟩ := unpackDigits_srcBytes_ok hnofill
    have hout : (BitVec.ofNat 32 ds.length).toNat = ds.length :=
      toNat_ofNat_of_le_toNat (w := s.dstLim) (by omega)
    refine ⟨_, exec_of_ok (i := .ddec) (ddec_ok hlen hlim hu), rfl, hout.trans hcount, ?_, fun j hj => ?_,
      fun j hj => ?_⟩
    · rw [complete_consumed, complete_outLen, hout, hcount]
      exact toNat_ofNat_of_le_toNat (w := s.dstLim) (by omega)
    · rw [complete_outLen, hout] at hj
      rw [complete_dstByte, storeDst_dstByte_lt ds s hj, ← hdigit j (hcount ▸ hj), List.getElem?_eq_getElem hj]
    · rw [complete_outLen, hout] at hj
      rw [complete_dstByte, storeDst_dstByte_ge ds s hj]

end Sys2Proof.Machine
end

section
/-! PROOFS of 42_timestamp_codec.md: what TSENC (R140) and TSDEC (R145) do, whole, and the offsets TSENC takes (R142). -/

namespace Sys2Proof.Machine

/-! ## TSENC -/

/-- The offset is the last field checked: out of range, it is the one reported where the six others fit (R140). -/
theorem marshal_offsetError {maxQh : Nat} {r : TsRegs} (hf : ∀ k, k < 6 → tsField r k ≤ 99)
    (hq : maxQh < (quarterHours r.offset).natAbs) :
    marshal maxQh r = .error ⟨.invalidInteger, BitVec.ofNat 32 (quarterHours r.offset).natAbs⟩ := by
  obtain ⟨b0, b1, b2, b3, b4, b5, -, -, -, -, -, -, hm⟩ := marshal_fields maxQh r hf
  rw [hm, tzEnc_error hq]
  rfl

/-- The seven bytes of registers that fit (R140, R141). -/
theorem marshal_ok {maxQh : Nat} {r : TsRegs} (hf : ∀ k, k < 6 → tsField r k ≤ 99)
    (hq : (quarterHours r.offset).natAbs ≤ maxQh) (hmax : maxQh ≤ 79) :
    ∃ bs, marshal maxQh r = .ok bs ∧
      (∀ k, k < 6 → ∃ b, bs[k]? = some b ∧ b.toNat = 16 * (tsField r k % 10) + tsField r k / 10) ∧
      ∃ b, bs[6]? = some b ∧ b.toNat = 16 * ((quarterHours r.offset).natAbs % 10) +
        (quarterHours r.offset).natAbs / 10 + (if quarterHours r.offset < 0 then 8 else 0) := by
  obtain ⟨b0, b1, b2, b3, b4, b5, h0, h1, h2, h3, h4, h5, hm⟩ := marshal_fields maxQh r hf
  obtain ⟨b6, h6, hb6⟩ := tzEnc_ok hq hmax
  refine ⟨[b0, b1, b2, b3, b4, b5, b6], by rw [hm, h6]; rfl, fun k hk => ?_, b6, rfl, hb6⟩
  match k, hk with
  | 0, _ => exact ⟨b0, rfl, (bcdEnc_toNat h0).2⟩
  | 1, _ => exact ⟨b1, rfl, (bcdEnc_toNat h1).2⟩
  | 2, _ => exact ⟨b2, rfl, (bcdEnc_toNat h2).2⟩
  | 3, _ => exact ⟨b3, rfl, (bcdEnc_toNat h3).2⟩
  | 4, _ => exact ⟨b4, rfl, (bcdEnc_toNat h4).2⟩
  | 5, _ => exact ⟨b5, rfl, (bcdEnc_toNat h5).2⟩

theorem exec_tsenc_offsetError {s : State} (hf : ∀ k, k < 6 → tsField s.ts k ≤ 99)
    (hq : s.params.tzQhMax < (quarterHours s.ts.offset).natAbs) :
    exec .tsenc s =
      .next (State.raise ⟨.invalidInteger, BitVec.ofNat 32 (quarterHours s.ts.offset).natAbs⟩ s) :=
  exec_of_error (i := .tsenc) (tsenc_error (marshal_offsetError hf hq))

theorem storeDst_dstByte_toNat {bs : List Byte} {k v : Nat} (s : State) (h : ∃ b, bs[k]? = some b ∧ b.toNat = v) :
    ((State.storeDst bs s).dstByte k).toNat = v := by
  obtain ⟨b, hb, rfl⟩ := h
  rw [storeDst_dstByte_of_getElem? s hb]

/-- Settles O48: the first field that does not fit, else the offset, else the seven bytes stored from DST[0]. -/
theorem tsencMeaning : Obligations.TsencMeaning := by
  refine ⟨by decide, fun s hadm => ⟨fun k hk hbad hlow => ?_, ?_⟩⟩
  · exact exec_of_error (i := .tsenc) (tsenc_error (marshal_fieldError _ _ hk hbad hlow))
  · rintro q rfl hf
    refine ⟨exec_tsenc_offsetError hf, fun hq => ?_⟩
    obtain ⟨-, -, -, -, -, hmax⟩ := admissible_numbers hadm
    obtain ⟨bs, hm, hfields, hoffset⟩ := marshal_ok hf hq hmax
    refine ⟨_, exec_of_ok (i := .tsenc) (tsenc_ok hm), rfl, fun k hk => ?_, ?_, fun k hk => ?_⟩
    · exact storeDst_dstByte_toNat s (hfields k hk)
    · exact storeDst_dstByte_toNat s hoffset
    · exact storeDst_dstByte_ge bs s (by rwa [marshal_length hm])

/-- Rounding toward zero is the division of the magnitude (R113). -/
theorem natAbs_quarterHours (m : BitVec 16) : (quarterHours m).natAbs = m.toInt.natAbs / 15 := Int.natAbs_tdiv _ _

theorem natAbs_quarterHours_le_79_iff (m : BitVec 16) :
    (quarterHours m).natAbs ≤ 79 ↔ -1199 ≤ m.toInt ∧ m.toInt ≤ 1199 := by
  rw [natAbs_quarterHours]
  omega

/-- The count fits ERRVAL. -/
theorem natAbs_quarterHours_lt (m : BitVec 16) : (quarterHours m).natAbs < 2 ^ 32 := by
  have hlow := BitVec.le_toInt m
  have hhigh := BitVec.toInt_lt (x := m)
  rw [natAbs_quarterHours]
  omega

/-- Settles O49: `marshal_ok` in the range, `exec_tsenc_offsetError` beyond it. -/
theorem tsencOffsetRange : Obligations.TsencOffsetRange := by
  intro s t hmax hf hexec
  rw [← natAbs_quarterHours_le_79_iff]
  by_cases hq : (quarterHours s.ts.offset).natAbs ≤ 79
  · obtain ⟨bs, hm, -⟩ := marshal_ok (maxQh := s.params.tzQhMax) hf (by omega) (by omega)
    obtain rfl : State.complete 7 0 (State.storeDst bs s) = t := by
      simpa [exec_of_ok (i := .tsenc) (tsenc_ok hm)] using hexec
    exact ⟨iff_of_true rfl hq, fun herr => absurd rfl herr⟩
  · obtain rfl : State.raise _ s = t := by
      simpa [exec_tsenc_offsetError hf (by omega : s.params.tzQhMax < _)] using hexec
    exact ⟨iff_of_false (by simp) hq, fun _ => ⟨rfl, Nat.mod_eq_of_lt (natAbs_quarterHours_lt _)⟩⟩

/-! ## TSDEC -/

theorem century_eq (pivot yy : Nat) : century pivot yy = (if pivot ≤ yy then 1900 else 2000) + yy := by
  unfold century
  split <;> rfl

/-- A pair's value fits a register of eight bits. -/
theorem toNat_ofNat_pairValue {b : Byte} (h : isPair b) : (BitVec.ofNat 8 (pairValue b)).toNat = pairValue b :=
  Nat.mod_eq_of_lt ((pairValue_le h).trans_lt (by decide))

/-- Settles O50: the two length checks, the first bad byte of the seven, else the registers of `unmarshal_ok`. -/
theorem tsdecMeaning : Obligations.TsdecMeaning := by
  refine ⟨by decide, fun s => ⟨fun hlen => exec_of_error (i := .tsdec) (tsdec_badLength hlen),
    fun hlen h7 => exec_of_error (i := .tsdec) (tsdec_underflow hlen h7), ?_, ?_, ?_⟩⟩
  · intro k hlen h7 hk hbad hlow
    exact exec_of_error (i := .tsdec) (tsdec_error hlen h7 (unmarshal_octetError _ _ hk hbad hlow))
  · intro hlen h7 hpairs hunits
    exact exec_of_error (i := .tsdec) (tsdec_error hlen h7 (unmarshal_offsetError _ _ hpairs hunits))
  · intro hlen h7 hpairs hunits
    have hfield (k : Nat) (hk : k < 6) := toNat_ofNat_pairValue (hpairs k hk)
    have hcount := quarterCount_natAbs hunits
    refine ⟨_, exec_of_ok (i := .tsdec) (tsdec_ok hlen h7 (unmarshal_ok _ _ hpairs hunits)), rfl, ?_,
      hfield 1 (by omega), hfield 2 (by omega), hfield 3 (by omega), hfield 4 (by omega), hfield 5 (by omega),
      offsetMinutes_toInt (by omega)⟩
    rw [← century_eq]
    exact century_toNat (pairValue_le (hpairs 0 (by omega)))

end Sys2Proof.Machine
end

section
/-! PROOFS of 43_charset_rom.md: inadmissible images are refused (R162), the derived encoder is lowest-code-wins (R163), and
what the four charset commands do, whole (R166 to R169). -/

namespace Sys2Proof.Machine

/-! ## Inadmissible parameters -/

theorem step_inadmissible {s : State} (h : admissible s.params = false) : step s = .refused .inadmissibleParameters := by
  unfold step
  rw [if_neg (by simp [h])]

/-- Settles O8: the step looks at the parameters before any event. -/
theorem inadmissibleParametersRefused : Obligations.InadmissibleParametersRefused := fun _ => step_inadmissible

/-! ## The derived encoder -/

/-- `c` is the code that R163 gives the code point `p`: its entry is `p`, and no smaller code's is. -/
def IsLowestCode (rom : List (Option CodePoint)) (p : Word) (c : Nat) : Prop :=
  (∃ q : CodePoint, rom[c]? = some (some q) ∧ q.toNat = p.toNat) ∧
    ∀ (c' : Nat) (q : CodePoint), c' < c → rom[c']? = some (some q) → q.toNat ≠ p.toNat

/-- A code point with a code has a lowest one. -/
theorem exists_isLowestCode {rom : List (Option CodePoint)} {p : Word}
    (h : ∃ (c : Nat) (q : CodePoint), rom[c]? = some (some q) ∧ q.toNat = p.toNat) : ∃ c, IsLowestCode rom p c := by
  classical
  exact ⟨Nat.find h, Nat.find_spec h, fun _ q hlt hc hq => Nat.find_min h hlt ⟨q, hc, hq⟩⟩

theorem romEncode_of_isLowestCode {rom : List (Option CodePoint)} {p : Word} {c : Nat} (h : IsLowestCode rom p c) :
    romEncode rom p = some c := by
  obtain ⟨⟨q, hc, hq⟩, hlow⟩ := h
  simp only [← romLookup_eq_some_iff] at hc hlow
  rw [romEncode, firstCode_some p rom 0 c q hc hq hlow, Nat.zero_add]

/-- What the encoder answers is the entry of a code, and so the lowest one's: two lowest codes would both be the answer. -/
theorem romEncode_eq_some_iff {rom : List (Option CodePoint)} {p : Word} {c : Nat} :
    romEncode rom p = some c ↔ IsLowestCode rom p c := by
  refine ⟨fun h => ?_, romEncode_of_isLowestCode⟩
  obtain ⟨-, -, q, hc, hq⟩ := firstCode_sound h
  obtain ⟨m, hm⟩ := exists_isLowestCode ⟨c, q, (romLookup_eq_some_iff rom c q).1 hc, hq⟩
  obtain rfl : c = m := Option.some.inj (h.symm.trans (romEncode_of_isLowestCode hm))
  exact hm

theorem romEncode_eq_none_iff {rom : List (Option CodePoint)} {p : Word} :
    romEncode rom p = none ↔ ∀ (c : Nat) (q : CodePoint), rom[c]? = some (some q) → q.toNat ≠ p.toNat := by
  constructor
  · intro h c q hc hq
    obtain ⟨m, hm⟩ := exists_isLowestCode ⟨c, q, hc, hq⟩
    rw [romEncode_of_isLowestCode hm] at h
    cases h
  · intro h
    exact firstCode_none p rom 0 fun c q hc => h c q ((romLookup_eq_some_iff rom c q).1 hc)

/-- Settles O52: `IsLowestCode` written out. -/
theorem encoderIsLowestCode : Obligations.EncoderIsLowestCode :=
  fun _ _ _ => ⟨fun _ => romEncode_eq_some_iff, romEncode_eq_none_iff⟩

/-! ## Decoding: CSDD and CSDE -/

theorem charsetDecode_ok {rom : List (Option CodePoint)} {s : State} {p : CodePoint} (hx : s.csIn.toNat ≤ 0x7F)
    (hp : rom[s.csIn.toNat]? = some (some p)) :
    charsetDecode rom s = .ok (State.complete 0 0 (State.setCsOut p s)) := by
  have hd : romDecode rom s.csIn = some p := by
    rw [romDecode, if_neg (by omega), romLookup_eq_some_iff, hp]
  rw [charsetDecode, hd]

theorem charsetDecode_error {rom : List (Option CodePoint)} {s : State}
    (h : 0x7F < s.csIn.toNat ∨ ∀ p : CodePoint, rom[s.csIn.toNat]? ≠ some (some p)) :
    charsetDecode rom s = .error ⟨.notDecodable, s.csIn⟩ := by
  have hd : romDecode rom s.csIn = none := by
    rw [Option.eq_none_iff_forall_ne_some]
    intro p hp
    obtain ⟨hx, hl⟩ := romDecode_some hp
    rw [romLookup_eq_some_iff] at hl
    rcases h with h | h
    · omega
    · exact h p hl
  rw [charsetDecode, hd]

/-- Settles O53: CSDD and CSDE follow one rule, over an image each. -/
theorem charsetDecodeMeaning : Obligations.CharsetDecodeMeaning := by
  refine ⟨decode_encode .csdd, decode_encode .csde, fun i s rom hi => ?_⟩
  have hrule : commandRule i s = charsetDecode rom s := by
    rcases hi with ⟨rfl, rfl⟩ | ⟨rfl, rfl⟩ <;> rfl
  constructor
  · intro p hx hp
    exact exec_of_ok (hrule.trans (charsetDecode_ok hx hp))
  · intro h
    exact exec_of_error (hrule.trans (charsetDecode_error h))

/-! ## Encoding: CSED and CSEE -/

theorem charsetEncode_ok {rom : List (Option CodePoint)} {s : State} {c : Nat} (h : IsLowestCode rom s.csIn c) :
    charsetEncode rom s = .ok (State.complete 0 0 (State.setCsOut (BitVec.ofNat 21 c) s)) := by
  rw [charsetEncode, romEncode_of_isLowestCode h]

theorem charsetEncode_error {rom : List (Option CodePoint)} {s : State}
    (h : ∀ (c : Nat) (q : CodePoint), rom[c]? = some (some q) → q.toNat ≠ s.csIn.toNat) :
    charsetEncode rom s = .error ⟨.notEncodable, s.csIn⟩ := by
  rw [charsetEncode, romEncode_eq_none_iff.2 h]

theorem admissible_rom_length {p : Params} (h : admissible p = true) : p.defDec.length = 128 ∧ p.extDec.length = 128 := by
  obtain ⟨-, hdef, hext, -, -⟩ := (admissible_iff p).1 h
  exact ⟨((romShape_iff _).1 hdef).1, ((romShape_iff _).1 hext).1⟩

/-- Settles O54: CSED and CSEE follow one rule, over an image each; a code is at most 0x7F since an image has 128. -/
theorem charsetEncodeMeaning : Obligations.CharsetEncodeMeaning := by
  refine ⟨decode_encode .csed, decode_encode .csee, fun i s rom hadm hi => ?_⟩
  obtain ⟨hdef, hext⟩ := admissible_rom_length hadm
  obtain ⟨hrule, hlen⟩ : commandRule i s = charsetEncode rom s ∧ rom.length = 128 := by
    rcases hi with ⟨rfl, rfl⟩ | ⟨rfl, rfl⟩
    · exact ⟨rfl, hdef⟩
    · exact ⟨rfl, hext⟩
  constructor
  · intro c q hc hq hlow
    obtain ⟨hlt, -⟩ := List.getElem?_eq_some_iff.1 hc
    exact ⟨by omega, exec_of_ok (hrule.trans (charsetEncode_ok ⟨⟨q, hc, hq⟩, hlow⟩))⟩
  · intro h
    exact exec_of_error (hrule.trans (charsetEncode_error h))

/-! ## The four fixed codes -/

/-- R161: a fixed code's entry is the code itself. -/
theorem admissible_fixedEntry {p : Params} {c : Nat} (h : admissible p = true) (hc : c ∈ [0x0A, 0x0D, 0x1B, 0x20]) :
    p.defDec[c]? = some (some (BitVec.ofNat 21 c)) := by
  obtain ⟨-, -, -, hfixed, -⟩ := (admissible_iff p).1 h
  obtain ⟨hA, hD, h1B, h20⟩ := (fixedEntries_iff _).1 hfixed
  simp only [List.mem_cons, List.not_mem_nil, or_false] at hc
  rcases hc with rfl | rfl | rfl | rfl
  · exact hA
  · exact hD
  · exact h1B
  · exact h20

/-- In an admissible DEF_DEC a code point has one code at most (R162), so any code of it is the lowest. -/
theorem isLowestCode_of_admissible {p : Params} {x : Word} {c : Nat} {q : CodePoint} (h : admissible p = true)
    (hc : p.defDec[c]? = some (some q)) (hq : q.toNat = x.toNat) : IsLowestCode p.defDec x c := by
  obtain ⟨-, -, -, -, hnodup⟩ := (admissible_iff p).1 h
  have hinj := (romEntries_nodup_iff _).1 hnodup
  simp only [romLookup_eq_some_iff] at hinj
  refine ⟨⟨q, hc, hq⟩, fun c' r hlt hc' hr => ?_⟩
  obtain rfl : r = q := BitVec.eq_of_toNat_eq (hr.trans hq.symm)
  exact hlt.ne (hinj c' c r hc' hc)

/-- Settles O55: a fixed code is the entry of itself (R161), and no other code's (R162). -/
theorem fixedCodesInEveryImage : Obligations.FixedCodesInEveryImage := by
  intro i s hadm hi hx
  have hentry := admissible_fixedEntry hadm hx
  have hle : s.csIn.toNat ≤ 0x7F := by
    simp only [List.mem_cons, List.not_mem_nil, or_false] at hx
    omega
  rw [← BitVec.ofNat_toNat]
  rcases hi with rfl | rfl
  · exact exec_of_ok (i := .csdd) (charsetDecode_ok hle hentry)
  · have hvalue : (BitVec.ofNat 21 s.csIn.toNat).toNat = s.csIn.toNat := Nat.mod_eq_of_lt (by omega)
    exact exec_of_ok (i := .csed) (charsetEncode_ok (isLowestCode_of_admissible hadm hentry hvalue))

end Sys2Proof.Machine
end

section
/-! PROOFS of 60_exceptions.md: how a command ends, with an error (R200, R201, R203) or without (R204), and that it always
ends (R207). -/

namespace Sys2Proof.Machine

/-- The inversion of a command that ends with an error: one of its kinds is raised in the state it started in. Every other
effect ends `ok`. -/
theorem raise_of_exec_error {i : Instr} {s t : State} (h : exec i s = .next t) (herr : t.status.err ≠ .ok) :
    ∃ e : CommandError, e.kind ∈ mayRaise i ∧ t = State.raise e s := by
  cases effect_of_exec h with
  | error e hk => exact ⟨e, hk, rfl⟩
  | stored => exact absurd rfl herr
  | stamped => exact absurd rfl herr
  | lookedUp => exact absurd rfl herr

/-- A command that ends `ok` leaves ERRVAL = 0 (R204): no error kind it raises is OK. -/
theorem CommandEffect.errVal_of_ok {i : Instr} {s t : State} (he : CommandEffect i s t) (hok : t.status.err = .ok) :
    t.errVal = 0 := by
  cases he with
  | error e hk => exact absurd (hok ▸ hk : ErrKind.ok ∈ mayRaise i) (ok_notMem_mayRaise i)
  | stored => rfl
  | stamped => rfl
  | lookedUp => rfl

/-- Settles O27: an error is raised in the state the command started in, so `State.raise` is all it writes. -/
theorem errorsAreAllOrNothing : Obligations.ErrorsAreAllOrNothing := by
  intro i s t h herr
  obtain ⟨e, -, rfl⟩ := raise_of_exec_error h herr
  rfl

/-- Settles O28: `exec` has an effect in every state, and every effect sets DONE. -/
theorem commandsAlwaysComplete : Obligations.CommandsAlwaysComplete := by
  intro i s
  obtain ⟨t, ht, he⟩ := exec_effect i s
  obtain ⟨-, -, -, -, -, -, -, -, hdone⟩ := he.keeps
  exact ⟨t, ht, hdone, he.errVal_of_ok⟩

/-- Settles O29: `mayRaise` lists the kinds of each row. -/
theorem errorKindsByCommand : Obligations.ErrorKindsByCommand := by
  intro i s t h herr
  obtain ⟨e, hk, rfl⟩ := raise_of_exec_error h herr
  cases i <;> simpa [mayRaise] using hk

/-- Settles O31: the SRC_LEN check comes first in the three commands, and the DST_LIM check second in DDEC. -/
theorem badLengthReports : Obligations.BadLengthReports := by
  refine fun s => ⟨fun hlen i hi => ?_, fun hlen hlim => exec_of_error (i := .ddec) (ddec_badLimit hlen hlim)⟩
  rcases hi with rfl | rfl | rfl
  · exact exec_of_error (i := .denc) (denc_badLength hlen)
  · exact exec_of_error (i := .ddec) (ddec_badSource hlen)
  · exact exec_of_error (i := .tsdec) (tsdec_badLength hlen)

end Sys2Proof.Machine
end

section
/-! PROOFS of 70_reset_and_hazards.md: what reset leaves (R220, R221), and what a read of STATUS right after a command
shows (R228). -/

namespace Sys2Proof.Machine

/-- An assertion of reset puts the block in its reset state, whatever access coincides with it (R220). -/
theorem step_reset {s : State} {lost : Option HostAccess} {rest : List HostEvent} (hadm : admissible s.params = true)
    (hp : s.pending = .reset lost :: rest) : step s = .next (applyReset (acceptEvent rest s)) := by
  unfold step
  rw [if_pos hadm, hp]
  rfl

/-- Settles O13: `step_reset`; a buffer with no byte listed has no known byte. -/
theorem resetEventClearsRegisters : Obligations.ResetEventClearsRegisters := by
  intro s lost rest hadm hp
  exact ⟨_, step_reset hadm hp, rfl, rfl, rfl, rfl, rfl, rfl, rfl, rfl, rfl, rfl, Memory.read_nil,
    Memory.read_nil, rfl, rfl⟩

/-- DONE is bit 8 of STATUS (R23). -/
theorem Status.word_getLsbD_done (st : Status) : st.word.getLsbD 8 = st.done := by
  simp only [Status.word, BitVec.getLsbD_append]
  simp

/-- ERR is the low four bits of STATUS (R23). -/
theorem Status.word_extractLsb'_err (st : Status) : st.word.extractLsb' 0 4 = st.err.code :=
  BitVec.extractLsb'_append_eq_right

/-- Settles O25: the CMD write completes with DONE set and leaves the parameters and the waiting read in place
(`runCommand_keeps`), and the read answers STATUS. -/
theorem pollAfterCommandShowsDone : Obligations.PollAfterCommandShowsDone := by
  intro s w rest hadm hp
  obtain ⟨t, ht, -⟩ := runCommand_effect w (acceptEvent (.access (.read 4 (s.params.blockBase + 0x004)) :: rest) s)
  obtain ⟨hparams, -, -, -, -, -, hpending, -, hdone⟩ := runCommand_keeps ht
  rw [acceptEvent_params] at hparams
  rw [acceptEvent_pending, ← hparams] at hpending
  have hread := step_readRegister (r := .status) (hparams ▸ hadm) rfl hpending
  exact ⟨t, _, t.status.word, (step_cmd hadm hp).trans ht, hread, rfl, (Status.word_getLsbD_done _).trans hdone,
    Status.word_extractLsb'_err _, rfl⟩

end Sys2Proof.Machine
end

section
/-! PROOFS of 40_bcd_primitives.md, the inferences: the BCD pair (R106) and the offset byte (R109) encode and decode
inversely, and the century window (R112). -/

namespace Sys2Proof.Machine

/-! ## The BCD pair -/

theorem pairValue_toNat_eq {b : Byte} (h : isPair b) : b.toNat = 16 * (pairValue b % 10) + pairValue b / 10 := by
  unfold isPair at h
  unfold pairValue
  omega

/-- Encoding the value of a pair gives the pair back (R106). -/
theorem bcdEnc_pairValue {b : Byte} (h : isPair b) : bcdEnc (pairValue b) = .ok b := by
  obtain ⟨c, hc⟩ : ∃ c, bcdEnc (pairValue b) = .ok c := ⟨_, bcdEnc_ok (pairValue_le h)⟩
  obtain rfl : c = b := BitVec.eq_of_toNat_eq ((bcdEnc_toNat hc).2.trans (pairValue_toNat_eq h).symm)
  exact hc

theorem isPair_of_nibbles_le {b : Byte} (h0 : lo b ≤ 9) (h1 : hi b ≤ 9) : isPair b := by
  rw [BitVec.le_def, lo_toNat] at h0
  rw [BitVec.le_def, hi_toNat] at h1
  exact ⟨h0, h1⟩

/-- Settles O45: `bcdDec_bcdEnc` one way, `bcdEnc_pairValue` the other. -/
theorem bcdPairRoundTrip : Obligations.BcdPairRoundTrip := by
  refine ⟨fun v hv => ⟨_, bcdEnc_ok hv, bcdDec_bcdEnc (bcdEnc_ok hv)⟩, fun b h0 h1 => ?_⟩
  have hb := isPair_of_nibbles_le h0 h1
  exact ⟨pairValue b, bcdDec_of_isPair hb, bcdEnc_pairValue hb⟩

/-! ## The offset byte -/

/-- An offset byte decodes if and only if its units are a digit, and then to the count of its digits (R108). -/
theorem tzDec_eq_ok_iff {b : Byte} {q : Int} : tzDec b = .ok q ↔ b.toNat / 16 ≤ 9 ∧ q = quarterCount b := by
  by_cases h : b.toNat / 16 ≤ 9
  · rw [tzDec_ok h, Except.ok.injEq, quarterCount]
    exact ⟨fun hq => ⟨h, hq.symm⟩, fun hq => hq.2.symm⟩
  · rw [tzDec_error (by omega)]
    exact iff_of_false (by simp) fun hq => h hq.1

/-- The number that the count of a byte encodes to (R107): the byte's own, but for the negative zero, whose sign is lost. -/
theorem quarterCount_encoded {b : Byte} (h : b.toNat / 16 ≤ 9) :
    16 * ((quarterCount b).natAbs % 10) + (quarterCount b).natAbs / 10 + (if quarterCount b < 0 then 8 else 0) =
      if b.toNat = 8 then 0 else b.toNat := by
  obtain ⟨m, hm⟩ : ∃ m, m = 10 * (b.toNat % 8) + b.toNat / 16 := ⟨_, rfl⟩
  have hunits : m % 10 = b.toNat / 16 := by omega
  have htens : m / 10 = b.toNat % 8 := by omega
  unfold quarterCount
  rw [← hm]
  by_cases hsign : b.toNat / 8 % 2 = 1
  · rw [if_pos hsign, Int.natAbs_neg, Int.natAbs_natCast, hunits, htens]
    split <;> split <;> omega
  · rw [if_neg hsign, Int.natAbs_natCast, hunits, htens]
    split <;> split <;> omega

/-- Encoding the count of a byte gives the byte back, and 0x00 for the negative zero 0x08 (R109). -/
theorem tzEnc_quarterCount {maxQh : Nat} {b : Byte} (hmax : maxQh ≤ 79) (h : b.toNat / 16 ≤ 9)
    (hq : (quarterCount b).natAbs ≤ maxQh) : tzEnc maxQh (quarterCount b) = .ok (if b = 0x08 then 0x00 else b) := by
  obtain ⟨c, hc, hn⟩ := tzEnc_ok hq hmax
  have hzero : b = 0x08 ↔ b.toNat = 8 := BitVec.toNat_inj.symm
  rw [hc, Except.ok.injEq]
  apply BitVec.eq_of_toNat_eq
  rw [hn, quarterCount_encoded h, apply_ite BitVec.toNat]
  exact if_congr hzero.symm rfl rfl

/-- Settles O46: `tzDec_tzEnc` one way, `tzEnc_quarterCount` the other. -/
theorem offsetByteRoundTrip : Obligations.OffsetByteRoundTrip := by
  refine fun maxQh hmax => ⟨fun q hq => ?_, fun b q hdec => ⟨fun hq => ?_, fun hq => ⟨_, tzEnc_error hq⟩⟩⟩
  · obtain ⟨b, hb, -⟩ := tzEnc_ok hq hmax
    exact ⟨b, hb, tzDec_tzEnc hmax hb⟩
  · obtain ⟨hunits, rfl⟩ := tzDec_eq_ok_iff.1 hdec
    exact tzEnc_quarterCount hmax hunits hq

/-! ## The century window -/

/-- A year in the window is the one its last two digits stand for (R112). -/
theorem century_mod_hundred {pivot y : Nat} (h0 : 1900 + pivot ≤ y) (h1 : y < 2000 + pivot) (hp : pivot ≤ 100) :
    century pivot (y % 100) = y := by
  unfold century
  split <;> omega

theorem century_mod_hundred_congr (pivot y : Nat) : century pivot (y % 100) % 100 = y % 100 := by
  unfold century
  split <;> omega

/-- What two digits stand for lies in the window (R111). -/
theorem century_mem_window {pivot yy : Nat} (hp : pivot ≤ 100) (hy : yy < 100) :
    1900 + pivot ≤ century pivot yy ∧ century pivot yy < 2000 + pivot := by
  unfold century
  split <;> omega

/-- Settles O47: what comes back has the year's last two digits and lies in the window, so it differs from a year outside. -/
theorem centuryWindow : Obligations.CenturyWindow := by
  refine fun pivot y hp => ⟨fun ⟨h0, h1⟩ => century_mod_hundred h0 h1 hp, fun hout => ?_⟩
  have hdigits := century_mod_hundred_congr pivot y
  have hwindow := century_mem_window hp (Nat.mod_lt y (by decide : 0 < 100))
  exact ⟨((century pivot (y % 100) : Int) - y) / 100, by omega, by omega⟩

end Sys2Proof.Machine
end

section
/-! PROOFS of 41_digit_codec.md, the inferences: where the fill value stands (R121), CONSUMED (R124), the round trips (R126)
and resumption (R127, with R226 of 70_reset_and_hazards.md). -/

namespace Sys2Proof.Machine

/-- A command has one outcome, so where it ends `ok` every account of it does. -/
theorem err_ok_of_exec {i : Instr} {s t u : State} (h : exec i s = .next t) (hok : t.status.err = .ok)
    (hu : exec i s = .next u) : u.status.err = .ok := by
  obtain rfl : t = u := Host.Outcome.next.inj (h.symm.trans hu)
  exact hok

/-! ## What DENC accepts and answers -/

/-- What DENC answers for the string of the digits `d 0, d 1, ...`: byte `k` packs the digits `2k` and `2k + 1`, the fill
value standing for the second where the string has ended (R120). -/
structure DencAnswer (s t : State) (d : Nat → Nibble) : Prop where
  err : t.status.err = .ok
  outLen : t.outLen.toNat = (s.srcLen.toNat + 1) / 2
  consumed : t.consumed = s.srcLen
  packed : ∀ k, k < t.outLen.toNat →
    t.dstByte k = pack (d (2 * k)) (if 2 * k + 1 < s.srcLen.toNat then d (2 * k + 1) else fill)

theorem exec_denc_answer {s : State} {d : Nat → Nibble} (hlen : s.srcLen.toNat ≤ s.params.bufBytes)
    (hsym : ∀ i, i < s.srcLen.toNat → nibOf (s.srcByte i) = some (d i)) :
    ∃ t, exec .denc s = .next t ∧ DencAnswer s t d := by
  obtain ⟨-, -, hmeaning⟩ := dencMeaning.2 s
  obtain ⟨t, ht, heq, hout, hpair, hlast, -⟩ := hmeaning d hlen hsym
  have hstatus : t.status = ⟨true, .ok⟩ := by rw [heq]
  refine ⟨t, ht, by rw [hstatus], hout, by rw [heq], fun k hk => BitVec.eq_of_toNat_eq ?_⟩
  rw [pack_toNat]
  split
  case isTrue hfull => exact hpair k hfull
  case isFalse hodd => exact hlast k (by omega)

/-- DENC accepts nothing but a string of symbols that fits the buffer: else its length, or the lowest byte that is no
symbol, is reported. -/
theorem denc_accepts {s t : State} (h : exec .denc s = .next t) (hok : t.status.err = .ok) :
    s.srcLen.toNat ≤ s.params.bufBytes ∧ ∀ i, i < s.srcLen.toNat → nibOf (s.srcByte i) ≠ none := by
  obtain ⟨hbad, hinvalid, -⟩ := dencMeaning.2 s
  have hlen : s.srcLen.toNat ≤ s.params.bufBytes := by
    by_contra hlen
    cases err_ok_of_exec h hok (hbad (by omega))
  refine ⟨hlen, fun i => ?_⟩
  induction i using Nat.strong_induction_on with
  | _ i ih =>
    intro hi hnone
    cases err_ok_of_exec h hok (hinvalid i hlen hi hnone fun j hj => ih j hj (hj.trans hi))

/-- The inversion of a DENC that ends `ok`. -/
theorem exec_denc_ok {s t : State} (h : exec .denc s = .next t) (hok : t.status.err = .ok) :
    ∃ d : Nat → Nibble, (∀ i, i < s.srcLen.toNat → nibOf (s.srcByte i) = some (d i)) ∧ DencAnswer s t d := by
  obtain ⟨hlen, hsym⟩ := denc_accepts h hok
  choose! d hd using fun i hi => Option.ne_none_iff_exists'.1 (hsym i hi)
  obtain ⟨t', ht', ha⟩ := exec_denc_answer hlen hd
  obtain rfl : t = t' := Host.Outcome.next.inj (h.symm.trans ht')
  exact ⟨d, hd, ha⟩

/-- Settles O38: no symbol has the fill value for its nibble, so it stands only where the string has ended. -/
theorem dencFillPlacement : Obligations.DencFillPlacement := by
  intro s t h hok
  obtain ⟨d, hd, ha⟩ := exec_denc_ok h hok
  have hout := ha.outLen
  have hne (i : Nat) (hi : i < s.srcLen.toNat) : d i ≠ fill := nibOf_ne_fill (hd i hi)
  refine ⟨hout, fun k hk => ?_, fun k hk => ?_, fun k hk => ?_⟩
  · refine ⟨d (2 * k), d (2 * k + 1), hd _ (by omega), hd _ (by omega), ?_, hne _ (by omega), hne _ (by omega)⟩
    rw [ha.packed k (by omega), if_pos (by omega)]
  · refine ⟨d (2 * k), hd _ (by omega), ?_⟩
    rw [ha.packed k (by omega), if_neg (by omega)]
  · rw [ha.packed k hk, lo_pack, hi_pack]
    refine ⟨hne _ (by omega), ?_⟩
    split
    case isTrue hfull => exact iff_of_false (hne _ hfull) (by omega)
    case isFalse hodd => exact iff_of_true rfl (by omega)

/-! ## What DDEC accepts and answers -/

/-- What DDEC answers: the digits of the first `min(DST_LIM, decodable length)` nibbles (R122). -/
structure DdecAnswer (s t : State) : Prop where
  err : t.status.err = .ok
  outLen : t.outLen.toNat = min s.dstLim.toNat (decodableLength s)
  consumed : t.consumed.toNat = (t.outLen.toNat + 1) / 2
  digits : ∀ j, j < t.outLen.toNat → symOf (srcNibble s j) = some (t.dstByte j)

/-- None of the nibbles that DDEC places is the fill value. -/
def FillFree (s : State) : Prop := ∀ j, j < min s.dstLim.toNat (decodableLength s) → srcNibble s j ≠ fill

theorem exec_ddec_answer {s : State} (hlen : s.srcLen.toNat ≤ s.params.bufBytes)
    (hlim : s.dstLim.toNat ≤ s.params.bufBytes) (hfree : FillFree s) : ∃ t, exec .ddec s = .next t ∧ DdecAnswer s t := by
  obtain ⟨-, -, -, hmeaning⟩ := ddecMeaning.2 s
  obtain ⟨t, ht, heq, hout, hconsumed, hdigits, -⟩ := hmeaning hlen hlim hfree
  have hstatus : t.status = ⟨true, .ok⟩ := by rw [heq]
  exact ⟨t, ht, by rw [hstatus], hout, hconsumed, hdigits⟩

/-- DDEC accepts nothing but lengths that fit the buffer and nibbles that have a symbol: else the length, or the byte of
the first fill value, is reported. -/
theorem ddec_accepts {s t : State} (h : exec .ddec s = .next t) (hok : t.status.err = .ok) :
    s.srcLen.toNat ≤ s.params.bufBytes ∧ s.dstLim.toNat ≤ s.params.bufBytes ∧ FillFree s := by
  obtain ⟨hbadSource, hbadLimit, hmissing, -⟩ := ddecMeaning.2 s
  have hlen : s.srcLen.toNat ≤ s.params.bufBytes := by
    by_contra hlen
    cases err_ok_of_exec h hok (hbadSource (by omega))
  have hlim : s.dstLim.toNat ≤ s.params.bufBytes := by
    by_contra hlim
    cases err_ok_of_exec h hok (hbadLimit hlen (by omega))
  refine ⟨hlen, hlim, fun j => ?_⟩
  induction j using Nat.strong_induction_on with
  | _ j ih =>
    intro hj hfill
    cases err_ok_of_exec h hok (hmissing j hlen hlim hj hfill fun i hi => ih i hi (hi.trans hj))

/-- The inversion of a DDEC that ends `ok`. -/
theorem exec_ddec_ok {s t : State} (h : exec .ddec s = .next t) (hok : t.status.err = .ok) : DdecAnswer s t := by
  obtain ⟨hlen, hlim, hfree⟩ := ddec_accepts h hok
  obtain ⟨t', ht', ha⟩ := exec_ddec_answer hlen hlim hfree
  obtain rfl : t = t' := Host.Outcome.next.inj (h.symm.trans ht')
  exact ha

/-- Equal nibbles are written as equal bytes. -/
theorem DdecAnswer.dstByte_eq {s t u v : State} (ht : DdecAnswer s t) (hv : DdecAnswer u v) {i j : Nat}
    (hi : i < t.outLen.toNat) (hj : j < v.outLen.toNat) (h : srcNibble s i = srcNibble u j) : t.dstByte i = v.dstByte j := by
  have hdigit := ht.digits i hi
  rw [h, hv.digits j hj] at hdigit
  exact (Option.some.inj hdigit).symm

/-- Settles O40: one clause of what DDEC answers. -/
theorem ddecConsumedIsHalfOfOutLen : Obligations.DdecConsumedIsHalfOfOutLen :=
  fun _ _ _ h hok => (exec_ddec_ok h hok).consumed

/-! ## The decodable length -/

theorem srcNibble_even (s : State) (k : Nat) : srcNibble s (2 * k) = lo (s.srcByte k) := by
  rw [srcNibble, if_pos (by omega), Nat.mul_div_cancel_left _ (by decide)]

theorem srcNibble_odd (s : State) (k : Nat) : srcNibble s (2 * k + 1) = hi (s.srcByte k) := by
  rw [srcNibble, if_neg (by omega), show (2 * k + 1) / 2 = k by omega]

/-- The decodable length in nibbles: all of them, less a fill value that is the last (R125). -/
theorem decodableLength_eq (s : State) : decodableLength s =
    if srcNibble s (2 * s.srcLen.toNat - 1) = fill ∧ 0 < s.srcLen.toNat then 2 * s.srcLen.toNat - 1
    else 2 * s.srcLen.toNat := by
  unfold decodableLength
  by_cases hpos : 0 < s.srcLen.toNat
  · rw [show 2 * s.srcLen.toNat - 1 = 2 * (s.srcLen.toNat - 1) + 1 by omega, srcNibble_odd]
    simp only [hpos, true_and, and_true]
  · simp only [hpos, false_and, and_false, if_false]

/-- The source has a byte for every two digits, and one more for an odd digit. -/
theorem decodableLength_half (s : State) : (decodableLength s + 1) / 2 = s.srcLen.toNat := by
  rw [decodableLength_eq]
  split <;> omega

/-- The nibble past the decodable length, where there is one, is the terminal fill value. -/
theorem srcNibble_eq_fill {s : State} {j : Nat} (hj : decodableLength s ≤ j) (hsrc : j < 2 * s.srcLen.toNat) :
    srcNibble s j = fill := by
  rw [decodableLength_eq] at hj
  split at hj
  case isTrue hfill => rw [show j = 2 * s.srcLen.toNat - 1 by omega]; exact hfill.1
  case isFalse => omega

/-! ## The round trips -/

/-- The packed string of `n` digits, as a source buffer. -/
structure PackedSource (u : State) (n : Nat) (d : Nat → Nibble) : Prop where
  srcLen : u.srcLen.toNat = (n + 1) / 2
  packed : ∀ k, k < u.srcLen.toNat → u.srcByte k = pack (d (2 * k)) (if 2 * k + 1 < n then d (2 * k + 1) else fill)

theorem PackedSource.srcNibble_eq {u : State} {n : Nat} {d : Nat → Nibble} (h : PackedSource u n d) {j : Nat} (hj : j < n) :
    srcNibble u j = d j := by
  have hlen := h.srcLen
  obtain ⟨k, rfl | rfl⟩ := Nat.even_or_odd' j
  · rw [srcNibble_even, h.packed k (by omega), lo_pack]
  · rw [srcNibble_odd, h.packed k (by omega), hi_pack, if_pos hj]

/-- A packed string of digits has as many as it was made of: an even one ends in a digit, an odd one in the fill value. -/
theorem PackedSource.decodableLength {u : State} {n : Nat} {d : Nat → Nibble} (h : PackedSource u n d)
    (hd : ∀ i, i < n → d i ≠ fill) : decodableLength u = n := by
  have hlen := h.srcLen
  rw [decodableLength_eq]
  obtain ⟨k, rfl | rfl⟩ := Nat.even_or_odd' n
  · rw [if_neg, hlen]
    · omega
    · rintro ⟨hfill, hpos⟩
      rw [h.srcNibble_eq (by omega)] at hfill
      exact hd _ (by omega) hfill
  · have hend : srcNibble u (2 * k + 1) = fill := by
      rw [srcNibble_odd, h.packed k (by omega), hi_pack, if_neg (by omega)]
    rw [show 2 * u.srcLen.toNat - 1 = 2 * k + 1 by omega, if_pos ⟨hend, by omega⟩]

/-- The digits DENC packed, read by DDEC. -/
theorem DencAnswer.packedSource {s t u : State} {d : Nat → Nibble} (ha : DencAnswer s t d) (hn : u.srcLen = t.outLen)
    (hb : ∀ k, k < t.outLen.toNat → u.srcByte k = t.dstByte k) : PackedSource u s.srcLen.toNat d where
  srcLen := hn ▸ ha.outLen
  packed k hk := by
    rw [hn] at hk
    rw [hb k hk, ha.packed k hk]

/-- Settles O41: DDEC reads the digits DENC packed, all of them, and writes their symbols. -/
theorem digitStringRoundTrip : Obligations.DigitStringRoundTrip := by
  intro s hlen hsym
  choose! d hd using fun i hi => Option.ne_none_iff_exists'.1 (hsym i hi)
  obtain ⟨t, ht, ha⟩ := exec_denc_answer hlen hd
  refine ⟨t, ht, ha.err, fun u hparams hn hlim hbuf hb => ?_⟩
  have hne (i : Nat) (hi : i < s.srcLen.toNat) : d i ≠ fill := nibOf_ne_fill (hd i hi)
  have hp := ha.packedSource hn hb
  have hcount : min u.dstLim.toNat (decodableLength u) = s.srcLen.toNat := by rw [hp.decodableLength hne]; omega
  have hfree : FillFree u := fun j hj => by
    rw [hcount] at hj
    rw [hp.srcNibble_eq hj]
    exact hne j hj
  obtain ⟨v, hv, hva⟩ := exec_ddec_answer (by have := hp.srcLen; omega) hbuf hfree
  have hout : v.outLen.toNat = s.srcLen.toNat := hva.outLen.trans hcount
  refine ⟨v, hv, hva.err, BitVec.eq_of_toNat_eq hout, BitVec.eq_of_toNat_eq ?_, fun i hi => ?_⟩
  · rw [hva.consumed, hout, ha.outLen]
  · have hdigit := hva.digits i (hout ▸ hi)
    rw [hp.srcNibble_eq hi, (nibOf_eq_some_iff _ _).1 (hd i hi)] at hdigit
    exact (Option.some.inj hdigit).symm

/-- Settles O42: DENC packs the digits DDEC wrote, which are all nibbles of the source but a terminal fill value, and puts
the fill value back there. -/
theorem packedBufferRoundTrip : Obligations.PackedBufferRoundTrip := by
  intro s t _ hlim h hok u hparams hn hb
  obtain ⟨-, hbuf, -⟩ := ddec_accepts h hok
  have ha := exec_ddec_ok h hok
  have hle := decodableLength_le s
  have hhalf := decodableLength_half s
  have hcount : u.srcLen.toNat = decodableLength s := by rw [hn, ha.outLen]; omega
  have hsym (i : Nat) (hi : i < u.srcLen.toNat) : nibOf (u.srcByte i) = some (srcNibble s i) := by
    rw [hn] at hi
    rw [nibOf_eq_some_iff, hb i hi, ha.digits i hi]
  obtain ⟨v, hv, hva⟩ := exec_denc_answer (by rw [hparams]; omega) hsym
  have hout : v.outLen.toNat = s.srcLen.toNat := by rw [hva.outLen, hcount, hhalf]
  refine ⟨v, hv, hva.err, BitVec.eq_of_toNat_eq hout, hva.consumed.trans hn, fun k hk => ?_⟩
  rw [hva.packed k (hout ▸ hk), srcByte_eq_pack]
  split
  case isTrue => rfl
  case isFalse hend => rw [srcNibble_eq_fill (j := 2 * k + 1) (by omega) (by omega)]

/-! ## Resumption -/

/-- The source of `u` is that of `s` from byte `c` on. -/
structure SourceFrom (s : State) (c : Nat) (u : State) : Prop where
  srcLen : u.srcLen.toNat = s.srcLen.toNat - c
  srcByte : ∀ i, i < u.srcLen.toNat → u.srcByte i = s.srcByte (c + i)

theorem SourceFrom.srcNibble {s u : State} {c j : Nat} (h : SourceFrom s c u) (hj : j < 2 * u.srcLen.toNat) :
    srcNibble u j = srcNibble s (2 * c + j) := by
  obtain ⟨k, rfl | rfl⟩ := Nat.even_or_odd' j
  · rw [← Nat.mul_add, srcNibble_even, srcNibble_even, h.srcByte k (by omega)]
  · rw [← Nat.add_assoc, ← Nat.mul_add, srcNibble_odd, srcNibble_odd, h.srcByte k (by omega)]

theorem SourceFrom.decodableLength {s u : State} {c : Nat} (h : SourceFrom s c u) :
    decodableLength u = decodableLength s - 2 * c := by
  have hlen := h.srcLen
  by_cases hpos : 0 < u.srcLen.toNat
  · have hlast : 2 * c + (2 * u.srcLen.toNat - 1) = 2 * s.srcLen.toNat - 1 := by omega
    have hspos : 0 < s.srcLen.toNat := by omega
    rw [decodableLength_eq u, decodableLength_eq s, h.srcNibble (by omega), hlast]
    simp only [hpos, hspos, and_true]
    split <;> omega
  · have hu := decodableLength_le u
    have hs := decodableLength_le s
    omega

/-- A limit of `l + m` cuts `n` digits where limits of `l` and then `m` do, `l` being even: the second decode starts at the
byte after the first's. -/
theorem min_add_of_even {l n : Nat} (m : Nat) (hl : l % 2 = 0) :
    min (l + m) n = min l n + min m (n - 2 * ((min l n + 1) / 2)) := by
  obtain h | h := Nat.le_total l n
  · rw [Nat.min_eq_left h]
    omega
  · rw [Nat.min_eq_right h]
    omega

/-- After an even limit a second decode that finds a digit starts where the first ended. -/
theorem DdecAnswer.two_mul_consumed {s t : State} (ht : DdecAnswer s t) (heven : s.dstLim.toNat % 2 = 0)
    (hmore : 2 * t.consumed.toNat < decodableLength s) : 2 * t.consumed.toNat = t.outLen.toNat := by
  have hout := ht.outLen
  have hconsumed := ht.consumed
  omega

theorem DdecAnswer.outLen_le {s t : State} (ht : DdecAnswer s t) : t.outLen.toNat ≤ decodableLength s :=
  ht.outLen ▸ Nat.min_le_right _ _

theorem DdecAnswer.lt_two_mul_srcLen {s t : State} (ht : DdecAnswer s t) {j : Nat} (hj : j < t.outLen.toNat) :
    j < 2 * s.srcLen.toNat :=
  hj.trans_le (ht.outLen_le.trans (decodableLength_le s))

/-- The digits after those of an even limit begin with a byte: nibble `j` of what the second decode reads follows the
first's output. -/
theorem DdecAnswer.srcNibble_resumed {s t u v : State} (ht : DdecAnswer s t) (hv : DdecAnswer u v)
    (hrest : SourceFrom s t.consumed.toNat u) (heven : s.dstLim.toNat % 2 = 0) {j : Nat} (hj : j < v.outLen.toNat) :
    srcNibble s (t.outLen.toNat + j) = srcNibble u j := by
  have hmore := hj.trans_le hv.outLen_le
  rw [hrest.decodableLength] at hmore
  rw [hrest.srcNibble (hv.lt_two_mul_srcLen hj), ht.two_mul_consumed heven (by omega)]

/-- Settles O43: the two outputs are the digits of one source, one after the other. -/
theorem evenLimitResumptionLosesNothing : Obligations.EvenLimitResumptionLosesNothing := by
  intro s t u v w _ heven hs hsok hup hulen hub hu huok hwp hwlen hwb hwlim hwbuf
  obtain ⟨hlen, -, hsfree⟩ := ddec_accepts hs hsok
  obtain ⟨-, -, hufree⟩ := ddec_accepts hu huok
  have ht := exec_ddec_ok hs hsok
  have hv := exec_ddec_ok hu huok
  have hrest : SourceFrom s t.consumed.toNat u := ⟨hulen, hub⟩
  have hwn : w.srcLen.toNat = s.srcLen.toNat := by rw [hwlen]
  have hwhole : SourceFrom s 0 w := ⟨hwn, fun i hi => by rw [Nat.zero_add]; exact hwb i (hwn ▸ hi)⟩
  have hsum : min w.dstLim.toNat (decodableLength w) = t.outLen.toNat + v.outLen.toNat := by
    rw [hwlim, hwhole.decodableLength, hv.outLen, hrest.decodableLength, ht.consumed, ht.outLen]
    exact min_add_of_even _ heven
  have hnibble (j : Nat) (hj : j < min w.dstLim.toNat (decodableLength w)) : srcNibble w j = srcNibble s j := by
    have hw := (hj.trans_le (Nat.min_le_right _ _)).trans_le (decodableLength_le w)
    rw [hwhole.srcNibble hw, Nat.mul_zero, Nat.zero_add]
  rw [hsum] at hnibble
  have hfree : FillFree w := fun j hj => by
    rw [hsum] at hj
    rw [hnibble j hj]
    obtain hlt | hge := Nat.lt_or_ge j t.outLen.toNat
    · exact hsfree j (ht.outLen ▸ hlt)
    · obtain ⟨i, rfl⟩ := Nat.exists_eq_add_of_le hge
      have hi := Nat.lt_of_add_lt_add_left hj
      rw [ht.srcNibble_resumed hv hrest heven hi]
      exact hufree i (hv.outLen ▸ hi)
  obtain ⟨x, hx, hxa⟩ := exec_ddec_answer (hwn ▸ hwp ▸ hlen) hwbuf hfree
  have hxout := hxa.outLen.trans hsum
  refine ⟨x, hx, hxa.err, hxout, fun j hj => ?_, fun j hj => ?_⟩
  · have hj' : j < t.outLen.toNat + v.outLen.toNat := Nat.lt_add_right _ hj
    exact hxa.dstByte_eq ht (hxout ▸ hj') hj (hnibble j hj')
  · have hj' := Nat.add_lt_add_left hj t.outLen.toNat
    exact hxa.dstByte_eq hv (hxout ▸ hj') hj ((hnibble _ hj').trans (ht.srcNibble_resumed hv hrest heven hj))

/-- Settles O44: an odd limit leaves the high nibble of byte CONSUMED-1 unread, and the resumed decode starts at the nibble
after it. -/
theorem oddLimitResumptionLosesOneDigit : Obligations.OddLimitResumptionLosesOneDigit := by
  intro s t u v _ hodd hcut hs hsok hulen hub hu huok
  have ht := exec_ddec_ok hs hsok
  have hv := exec_ddec_ok hu huok
  have hrest : SourceFrom s t.consumed.toNat u := ⟨hulen, hub⟩
  have hout : t.outLen.toNat = s.dstLim.toNat := by rw [ht.outLen]; omega
  have hconsumed : 2 * t.consumed.toNat = t.outLen.toNat + 1 := by have := ht.consumed; omega
  refine ⟨BitVec.eq_of_toNat_eq hout, hconsumed, ?_, ht.digits, fun j hj => ?_⟩
  · rw [← srcNibble_odd]
    congr 1
    omega
  · rw [← hconsumed, ← hrest.srcNibble (hv.lt_two_mul_srcLen hj)]
    exact hv.digits j hj

end Sys2Proof.Machine
end

section
/-! PROOFS of 42_timestamp_codec.md, the inference: the timestamp round trip (R150). -/

namespace Sys2Proof.Machine

/-- The registers of the seven bytes of `r`: those of `r` itself, with its offset rounded to quarter-hours. -/
theorem unmarshal_of_marshal {maxQh pivot : Nat} {r : TsRegs} {src : Nat → Byte} {bs : List Byte}
    (hf : ∀ k, k < 6 → tsField r k ≤ 99) (hmax : maxQh ≤ 79) (hp : pivot ≤ 100) (h0 : 1900 + pivot ≤ r.year.toNat)
    (h1 : r.year.toNat < 2000 + pivot) (hm : marshal maxQh r = .ok bs) (hsrc : ∀ k, k < 7 → bs[k]? = some (src k)) :
    unmarshal pivot src = .ok { r with offset := offsetMinutes (quarterHours r.offset) } := by
  obtain ⟨b0, b1, b2, b3, b4, b5, e0, e1, e2, e3, e4, e5, hbytes⟩ := marshal_fields maxQh r hf
  cases hq : tzEnc maxQh (quarterHours r.offset) with
  | error e =>
    rw [hbytes, hq] at hm
    cases hm
  | ok b6 =>
    obtain rfl : [b0, b1, b2, b3, b4, b5, b6] = bs := by
      rw [hbytes, hq] at hm
      exact Except.ok.inj hm
    obtain rfl : b0 = src 0 := Option.some.inj (hsrc 0 (by omega))
    obtain rfl : b1 = src 1 := Option.some.inj (hsrc 1 (by omega))
    obtain rfl : b2 = src 2 := Option.some.inj (hsrc 2 (by omega))
    obtain rfl : b3 = src 3 := Option.some.inj (hsrc 3 (by omega))
    obtain rfl : b4 = src 4 := Option.some.inj (hsrc 4 (by omega))
    obtain rfl : b5 = src 5 := Option.some.inj (hsrc 5 (by omega))
    obtain rfl : b6 = src 6 := Option.some.inj (hsrc 6 (by omega))
    simp [unmarshal, bcdDec_bcdEnc e0, bcdDec_bcdEnc e1, bcdDec_bcdEnc e2, bcdDec_bcdEnc e3, bcdDec_bcdEnc e4,
      bcdDec_bcdEnc e5, tzDec_tzEnc hmax hq, tsField, century_mod_hundred h0 h1 hp, bind, Except.bind, pure, Except.pure]

/-- The offset as the block keeps it: rounded toward zero to quarter-hours (R113, R114). -/
theorem offsetMinutes_quarterHours_toInt {m : BitVec 16} (h : (quarterHours m).natAbs ≤ 79) :
    (offsetMinutes (quarterHours m)).toInt = 15 * m.toInt.tdiv 15 :=
  offsetMinutes_toInt (by omega)

theorem offsetMinutes_quarterHours_of_dvd {m : BitVec 16} (h : (quarterHours m).natAbs ≤ 79) (hm : m.toInt % 15 = 0) :
    offsetMinutes (quarterHours m) = m := by
  apply BitVec.eq_of_toInt_eq
  rw [offsetMinutes_quarterHours_toInt h]
  exact Int.mul_tdiv_cancel' (Int.dvd_of_emod_eq_zero hm)

/-- Settles O51: TSDEC reads the seven bytes TSENC stored. -/
theorem timestampRoundTrip : Obligations.TimestampRoundTrip := by
  intro s hadm h0 h1 hf hq
  obtain ⟨-, -, hbuf, -, hp, hmax⟩ := admissible_numbers hadm
  obtain ⟨bs, hm, -⟩ := marshal_ok hf hq hmax
  refine ⟨_, exec_of_ok (i := .tsenc) (tsenc_ok hm), rfl, fun u hup hlen hb => ?_⟩
  have hseven : u.srcLen.toNat = 7 := by rw [hlen]; rfl
  have hsrc (k : Nat) (hk : k < 7) : bs[k]? = some (u.srcByte k) := by
    have hk' : k < bs.length := by rwa [marshal_length hm]
    rw [hb k hk, complete_dstByte, storeDst_dstByte_lt bs s hk', List.getElem?_eq_getElem hk']
  have hr : unmarshal u.params.centuryPivot u.srcByte = .ok _ := hup ▸ unmarshal_of_marshal hf hmax hp h0 h1 hm hsrc
  have hq79 := hq.trans hmax
  refine ⟨_, exec_of_ok (i := .tsdec) (tsdec_ok (by rw [hup]; omega) (by omega) hr), rfl, rfl,
    offsetMinutes_quarterHours_toInt hq79, fun hdvd => ?_⟩
  rw [complete_ts, setTs_ts, offsetMinutes_quarterHours_of_dvd hq79 hdvd]

end Sys2Proof.Machine
end

section
/-! PROOFS of 43_charset_rom.md, the inferences: a code point decoded is encoded again (R170). -/

namespace Sys2Proof.Machine

/-- The inversion of a decode command over the image `rom` that ends `ok`. -/
theorem charsetDecode_next_ok {rom : List (Option CodePoint)} {s t : State}
    (h : conclude s (charsetDecode rom s) = .next t) (hok : t.status.err = .ok) :
    rom[s.csIn.toNat]? = some (some t.csOut) := by
  cases hd : romDecode rom s.csIn with
  | none =>
    rw [charsetDecode, hd] at h
    rw [← Host.Outcome.next.inj h] at hok
    cases hok
  | some p =>
    rw [charsetDecode, hd] at h
    rw [← Host.Outcome.next.inj h]
    exact (romLookup_eq_some_iff _ _ _).1 (romDecode_some hd).2

/-- An encode command over the image `rom` answers the lowest code of CS_IN, which CS_OUT has room for. -/
theorem charsetEncode_next {rom : List (Option CodePoint)} {s : State} {c : Nat} (hlen : rom.length = 128)
    (h : IsLowestCode rom s.csIn c) :
    ∃ t, conclude s (charsetEncode rom s) = .next t ∧ t.status.err = .ok ∧ t.csOut.toNat = c := by
  obtain ⟨q, hc, -⟩ := h.1
  obtain ⟨hlt, -⟩ := List.getElem?_eq_some_iff.1 hc
  refine ⟨State.complete 0 0 (State.setCsOut (BitVec.ofNat 21 c) s), by rw [charsetEncode_ok h, conclude_ok], rfl, ?_⟩
  rw [complete_csOut, setCsOut_csOut, BitVec.toNat_ofNat]
  omega

theorem codePoint_toNat_setWidth (p : CodePoint) : (p.setWidth 32 : Word).toNat = p.toNat :=
  BitVec.toNat_setWidth_of_le (by decide)

/-- Settles O56: in an admissible DEF_DEC the code is the lowest of its code point, being the only one (R162). -/
theorem defaultTableReencodes : Obligations.DefaultTableReencodes := by
  intro s t u hadm h hok hup hin
  have hentry := charsetDecode_next_ok (rom := s.params.defDec) h hok
  have hvalue : t.csOut.toNat = u.csIn.toNat := by rw [hin, codePoint_toNat_setWidth]
  have hlow := isLowestCode_of_admissible hadm hentry hvalue
  rw [← hup] at hlow
  exact charsetEncode_next (rom := u.params.defDec) (hup ▸ (admissible_rom_length hadm).1) hlow

/-- Settles O57: the code decoded has the code point, so there is a lowest code that has it, and none is above the code. -/
theorem extensionTableReencodesToLowest : Obligations.ExtensionTableReencodesToLowest := by
  intro s t u hadm h hok hup hin
  have hentry := charsetDecode_next_ok (rom := s.params.extDec) h hok
  have hvalue : t.csOut.toNat = u.csIn.toNat := by rw [hin, codePoint_toNat_setWidth]
  obtain ⟨c, hlow⟩ := exists_isLowestCode ⟨_, _, hentry, hvalue⟩
  obtain ⟨q, hc, hq⟩ := hlow.1
  have hmin := hlow.2
  obtain rfl : q = t.csOut := BitVec.eq_of_toNat_eq (hq.trans hvalue.symm)
  rw [← hup] at hlow
  obtain ⟨v, hv, hvok, rfl⟩ := charsetEncode_next (rom := u.params.extDec) (hup ▸ (admissible_rom_length hadm).2) hlow
  refine ⟨v, hv, hvok, ?_, hc, fun c' hlt hc' => hmin c' _ hlt hc' hvalue⟩
  by_contra hgt
  exact hmin _ _ (by omega) hentry hvalue

end Sys2Proof.Machine
end
